-- ==== Sys2Proof/Word.lean ====
section
/-! DEFINITION. The word types of the machine: 8-bit cells and registers, 16-bit address registers (spec/00_scope.md R7). -/

namespace Sys2Proof

/-- One memory cell or general register: "8-bit unsigned" (R20, R27). -/
abbrev Byte := BitVec 8

/-- The width of `I`, `PC`, a stack entry and an opcode (R23, R24, R29, R70). -/
abbrev Word := BitVec 16

/-- A 12-bit address immediate `nnn` (R71). -/
abbrev Addr := BitVec 12

/-- The 4-bit immediate `n` (R71). -/
abbrev Nibble := BitVec 4

/-- The index of a general register: always in 0..15 (R20). -/
abbrev RegIx := Fin 16

end Sys2Proof
end

