-- ==== Sys2Proof/Syntax.lean ====
section
/-! DEFINITION. The 34 instructions of spec/30_encoding.md R74, one constructor for each row of spec/opcode_table.json.
An operand has exactly the width of its field (R71), so no operand is out of range. -/

namespace Sys2Proof

/-- An instruction. The comment of a constructor gives its pattern (R74) and the rule of its meaning. -/
inductive Instr where
  /-- `00E0`, R140. -/
  | cls
  /-- `00EE`, R90. -/
  | ret
  /-- `1nnn`, R91. -/
  | jp (nnn : Addr)
  /-- `2nnn`, R92. -/
  | call (nnn : Addr)
  /-- `3xnn`, R100. -/
  | seImm (x : RegIx) (nn : Byte)
  /-- `4xnn`, R101. -/
  | sneImm (x : RegIx) (nn : Byte)
  /-- `5xy0`, R102. -/
  | seReg (x y : RegIx)
  /-- `6xnn`, R110. -/
  | ldImm (x : RegIx) (nn : Byte)
  /-- `7xnn`, R111. -/
  | addImm (x : RegIx) (nn : Byte)
  /-- `8xy0`, R112. -/
  | ldReg (x y : RegIx)
  /-- `8xy1`, R113. -/
  | orReg (x y : RegIx)
  /-- `8xy2`, R114. -/
  | andReg (x y : RegIx)
  /-- `8xy3`, R115. -/
  | xorReg (x y : RegIx)
  /-- `8xy4`, R116. -/
  | addReg (x y : RegIx)
  /-- `8xy5`, R117. -/
  | subReg (x y : RegIx)
  /-- `8xy6`, R118. The `y` field is decoded and ignored (R77). -/
  | shr (x y : RegIx)
  /-- `8xy7`, R119. -/
  | subnReg (x y : RegIx)
  /-- `8xyE`, R120. The `y` field is decoded and ignored (R77). -/
  | shl (x y : RegIx)
  /-- `9xy0`, R103. -/
  | sneReg (x y : RegIx)
  /-- `Annn`, R130. -/
  | ldI (nnn : Addr)
  /-- `Bnnn`, R93. -/
  | jpV0 (nnn : Addr)
  /-- `Cxnn`, R121. -/
  | rnd (x : RegIx) (nn : Byte)
  /-- `Dxyn`, R141. -/
  | drw (x y : RegIx) (n : Nibble)
  /-- `Ex9E`, R153. -/
  | skp (x : RegIx)
  /-- `ExA1`, R154. -/
  | sknp (x : RegIx)
  /-- `Fx07`, R150. -/
  | ldVxDT (x : RegIx)
  /-- `Fx0A`, R155. -/
  | ldVxK (x : RegIx)
  /-- `Fx15`, R151. -/
  | ldDTVx (x : RegIx)
  /-- `Fx18`, R152. -/
  | ldSTVx (x : RegIx)
  /-- `Fx1E`, R131. -/
  | addI (x : RegIx)
  /-- `Fx29`, R132. -/
  | ldF (x : RegIx)
  /-- `Fx33`, R133. -/
  | ldB (x : RegIx)
  /-- `Fx55`, R134. -/
  | ldMemVx (x : RegIx)
  /-- `Fx65`, R135. -/
  | ldVxMem (x : RegIx)
  deriving DecidableEq, Repr

end Sys2Proof
end

