-- ==== Sys2Proof/WellFormed.lean ====
section
/-! DEFINITION. Well-formedness: of a 16-bit word (it is one of the 43954 known opcodes of spec/30_encoding.md R74) and of an
instruction (every operand in its field, R71). -/

namespace Sys2Proof

/-- One row of the opcode map: an opcode `op` selects it when `op & mask = value` (R74; `value` is the row's `match`). -/
structure OpcodeRow where
  mask : Word
  value : Word
  deriving DecidableEq, Repr

/-- The opcode selects the row (R74). -/
def OpcodeRow.selects (r : OpcodeRow) (op : Word) : Bool := op &&& r.mask == r.value

/-- The opcode map, in the order of R74. -/
def opcodeMap : List OpcodeRow :=
  [⟨0xFFFF, 0x00E0⟩,   -- 00E0
   ⟨0xFFFF, 0x00EE⟩,   -- 00EE
   ⟨0xF000, 0x1000⟩,   -- 1nnn
   ⟨0xF000, 0x2000⟩,   -- 2nnn
   ⟨0xF000, 0x3000⟩,   -- 3xnn
   ⟨0xF000, 0x4000⟩,   -- 4xnn
   ⟨0xF00F, 0x5000⟩,   -- 5xy0
   ⟨0xF000, 0x6000⟩,   -- 6xnn
   ⟨0xF000, 0x7000⟩,   -- 7xnn
   ⟨0xF00F, 0x8000⟩,   -- 8xy0
   ⟨0xF00F, 0x8001⟩,   -- 8xy1
   ⟨0xF00F, 0x8002⟩,   -- 8xy2
   ⟨0xF00F, 0x8003⟩,   -- 8xy3
   ⟨0xF00F, 0x8004⟩,   -- 8xy4
   ⟨0xF00F, 0x8005⟩,   -- 8xy5
   ⟨0xF00F, 0x8006⟩,   -- 8xy6
   ⟨0xF00F, 0x8007⟩,   -- 8xy7
   ⟨0xF00F, 0x800E⟩,   -- 8xyE
   ⟨0xF00F, 0x9000⟩,   -- 9xy0
   ⟨0xF000, 0xA000⟩,   -- Annn
   ⟨0xF000, 0xB000⟩,   -- Bnnn
   ⟨0xF000, 0xC000⟩,   -- Cxnn
   ⟨0xF000, 0xD000⟩,   -- Dxyn
   ⟨0xF0FF, 0xE09E⟩,   -- Ex9E
   ⟨0xF0FF, 0xE0A1⟩,   -- ExA1
   ⟨0xF0FF, 0xF007⟩,   -- Fx07
   ⟨0xF0FF, 0xF00A⟩,   -- Fx0A
   ⟨0xF0FF, 0xF015⟩,   -- Fx15
   ⟨0xF0FF, 0xF018⟩,   -- Fx18
   ⟨0xF0FF, 0xF01E⟩,   -- Fx1E
   ⟨0xF0FF, 0xF029⟩,   -- Fx29
   ⟨0xF0FF, 0xF033⟩,   -- Fx33
   ⟨0xF0FF, 0xF055⟩,   -- Fx55
   ⟨0xF0FF, 0xF065⟩]   -- Fx65

/-- The row of an instruction in the opcode map (R74). -/
def Instr.row : Instr → OpcodeRow
  | .cls => ⟨0xFFFF, 0x00E0⟩
  | .ret => ⟨0xFFFF, 0x00EE⟩
  | .jp _ => ⟨0xF000, 0x1000⟩
  | .call _ => ⟨0xF000, 0x2000⟩
  | .seImm _ _ => ⟨0xF000, 0x3000⟩
  | .sneImm _ _ => ⟨0xF000, 0x4000⟩
  | .seReg _ _ => ⟨0xF00F, 0x5000⟩
  | .ldImm _ _ => ⟨0xF000, 0x6000⟩
  | .addImm _ _ => ⟨0xF000, 0x7000⟩
  | .ldReg _ _ => ⟨0xF00F, 0x8000⟩
  | .orReg _ _ => ⟨0xF00F, 0x8001⟩
  | .andReg _ _ => ⟨0xF00F, 0x8002⟩
  | .xorReg _ _ => ⟨0xF00F, 0x8003⟩
  | .addReg _ _ => ⟨0xF00F, 0x8004⟩
  | .subReg _ _ => ⟨0xF00F, 0x8005⟩
  | .shr _ _ => ⟨0xF00F, 0x8006⟩
  | .subnReg _ _ => ⟨0xF00F, 0x8007⟩
  | .shl _ _ => ⟨0xF00F, 0x800E⟩
  | .sneReg _ _ => ⟨0xF00F, 0x9000⟩
  | .ldI _ => ⟨0xF000, 0xA000⟩
  | .jpV0 _ => ⟨0xF000, 0xB000⟩
  | .rnd _ _ => ⟨0xF000, 0xC000⟩
  | .drw _ _ _ => ⟨0xF000, 0xD000⟩
  | .skp _ => ⟨0xF0FF, 0xE09E⟩
  | .sknp _ => ⟨0xF0FF, 0xE0A1⟩
  | .ldVxDT _ => ⟨0xF0FF, 0xF007⟩
  | .ldVxK _ => ⟨0xF0FF, 0xF00A⟩
  | .ldDTVx _ => ⟨0xF0FF, 0xF015⟩
  | .ldSTVx _ => ⟨0xF0FF, 0xF018⟩
  | .addI _ => ⟨0xF0FF, 0xF01E⟩
  | .ldF _ => ⟨0xF0FF, 0xF029⟩
  | .ldB _ => ⟨0xF0FF, 0xF033⟩
  | .ldMemVx _ => ⟨0xF0FF, 0xF055⟩
  | .ldVxMem _ => ⟨0xF0FF, 0xF065⟩

/-- A word is well-formed when some row selects it; every other word is an unknown opcode (R76). -/
def wordWellFormed (op : Word) : Bool := opcodeMap.any (fun r => r.selects op)

/-- A register operand fits its 4-bit field (R71). -/
def regFits (x : RegIx) : Bool := decide (x.val < 2 ^ 4)

/-- Every operand lies in its field (R71): `x`, `y`, `n` in 4 bits, `nn` in 8, `nnn` in 12. The operand types have
exactly these widths, so that no ill-formed instruction can be built (`Instr.wellFormed_all` in Laws/Encoding.lean):
"the rejection can never fire" (R20). -/
def Instr.WellFormed : Instr → Bool
  | .cls | .ret => true
  | .jp nnn | .call nnn | .ldI nnn | .jpV0 nnn => decide (nnn.toNat < 2 ^ 12)
  | .seImm x nn | .sneImm x nn | .ldImm x nn | .addImm x nn | .rnd x nn => regFits x && decide (nn.toNat < 2 ^ 8)
  | .seReg x y | .sneReg x y | .ldReg x y | .orReg x y | .andReg x y | .xorReg x y | .addReg x y
  | .subReg x y | .shr x y | .subnReg x y | .shl x y => regFits x && regFits y
  | .drw x y n => regFits x && regFits y && decide (n.toNat < 2 ^ 4)
  | .skp x | .sknp x | .ldVxDT x | .ldVxK x | .ldDTVx x | .ldSTVx x | .addI x | .ldF x | .ldB x
  | .ldMemVx x | .ldVxMem x => regFits x

end Sys2Proof
end

