-- ==== Sys2Proof/Decode.lean ====
section
/-! DEFINITION. The decoder of spec/30_encoding.md R75, a pure function of the 16-bit opcode (R78), and the encoder of R72. -/

namespace Sys2Proof

/-- What decoding answers: one of the 34 instructions, or `Unknown` with the opcode (R74). -/
inductive Decoded where
  | known (i : Instr)
  /-- An unknown opcode (R76): every word no row of R74 matches. -/
  | unknown (op : Word)
  deriving DecidableEq, Repr

/-- `top = op[15:12]` (R71). -/
def fieldTop (op : Word) : BitVec 4 := op.extractLsb' 12 4

/-- `x = op[11:8]` (R71). -/
def fieldX (op : Word) : RegIx := (op.extractLsb' 8 4).toFin

/-- `y = op[7:4]` (R71). -/
def fieldY (op : Word) : RegIx := (op.extractLsb' 4 4).toFin

/-- `n = op[3:0]` (R71). -/
def fieldN (op : Word) : Nibble := op.extractLsb' 0 4

/-- `nn = op[7:0]` (R71). -/
def fieldNN (op : Word) : Byte := op.extractLsb' 0 8

/-- `nnn = op[11:0]` (R71). -/
def fieldNNN (op : Word) : Addr := op.extractLsb' 0 12

/-- Top nibble 0x0: the whole word decides (R75). -/
def decode0 (op : Word) : Decoded :=
  if op = 0x00E0 then .known .cls
  else if op = 0x00EE then .known .ret
  else .unknown op

/-- Top nibble 0x8: `op[3:0]` decides (R75). -/
def decode8 (op : Word) : Decoded :=
  match fieldN op with
  | 0x0 => .known (.ldReg (fieldX op) (fieldY op))
  | 0x1 => .known (.orReg (fieldX op) (fieldY op))
  | 0x2 => .known (.andReg (fieldX op) (fieldY op))
  | 0x3 => .known (.xorReg (fieldX op) (fieldY op))
  | 0x4 => .known (.addReg (fieldX op) (fieldY op))
  | 0x5 => .known (.subReg (fieldX op) (fieldY op))
  | 0x6 => .known (.shr (fieldX op) (fieldY op))
  | 0x7 => .known (.subnReg (fieldX op) (fieldY op))
  | 0xE => .known (.shl (fieldX op) (fieldY op))
  | _ => .unknown op

/-- Top nibble 0xE: `op[7:0]` decides (R75). -/
def decodeE (op : Word) : Decoded :=
  match fieldNN op with
  | 0x9E => .known (.skp (fieldX op))
  | 0xA1 => .known (.sknp (fieldX op))
  | _ => .unknown op

/-- Top nibble 0xF: `op[7:0]` decides (R75). -/
def decodeF (op : Word) : Decoded :=
  match fieldNN op with
  | 0x07 => .known (.ldVxDT (fieldX op))
  | 0x0A => .known (.ldVxK (fieldX op))
  | 0x15 => .known (.ldDTVx (fieldX op))
  | 0x18 => .known (.ldSTVx (fieldX op))
  | 0x1E => .known (.addI (fieldX op))
  | 0x29 => .known (.ldF (fieldX op))
  | 0x33 => .known (.ldB (fieldX op))
  | 0x55 => .known (.ldMemVx (fieldX op))
  | 0x65 => .known (.ldVxMem (fieldX op))
  | _ => .unknown op

/-- The decode procedure of R75: a total function of the opcode. The low nibble of `5xy0` and `9xy0` is checked
(strict decoding, decision D7). The last arm has the one top nibble left, 0xF. -/
def decode (op : Word) : Decoded :=
  match fieldTop op with
  | 0x0 => decode0 op
  | 0x1 => .known (.jp (fieldNNN op))
  | 0x2 => .known (.call (fieldNNN op))
  | 0x3 => .known (.seImm (fieldX op) (fieldNN op))
  | 0x4 => .known (.sneImm (fieldX op) (fieldNN op))
  | 0x5 => if fieldN op = 0 then .known (.seReg (fieldX op) (fieldY op)) else .unknown op
  | 0x6 => .known (.ldImm (fieldX op) (fieldNN op))
  | 0x7 => .known (.addImm (fieldX op) (fieldNN op))
  | 0x8 => decode8 op
  | 0x9 => if fieldN op = 0 then .known (.sneReg (fieldX op) (fieldY op)) else .unknown op
  | 0xA => .known (.ldI (fieldNNN op))
  | 0xB => .known (.jpV0 (fieldNNN op))
  | 0xC => .known (.rnd (fieldX op) (fieldNN op))
  | 0xD => .known (.drw (fieldX op) (fieldY op) (fieldN op))
  | 0xE => decodeE op
  | _ => decodeF op

/-- The opcode of two bytes: the byte at the lower address is bits 15:8 (R52). -/
def opcodeOfBytes (first second : Byte) : Word := first ++ second

/-- Decoding of any two bytes as they stand in memory, the lower address first (R52, R75). -/
def decodeBytes (first second : Byte) : Decoded := decode (opcodeOfBytes first second)

/-- The instruction an answer of the decoder holds, if it is one. -/
def instrOf : Decoded → Option Instr
  | .known i => some i
  | .unknown _ => none

/-- The 4 bits of a register operand (R71). -/
def regBits (x : RegIx) : BitVec 4 := BitVec.ofFin x

/-- Format `A` (R72): `top` `nnn`. -/
def formatA (top : BitVec 4) (nnn : Addr) : Word := top ++ nnn

/-- Format `XI` (R72): `top` `x` `nn`; also format `XF` with the function byte in the place of `nn`. -/
def formatXI (top : BitVec 4) (x : RegIx) (nn : Byte) : Word := (top ++ regBits x) ++ nn

/-- Format `XYN` (R72): `top` `x` `y` `n`; also format `XY` with the sub-opcode in the place of `n`. -/
def formatXYN (top : BitVec 4) (x y : RegIx) (n : Nibble) : Word := (top ++ regBits x) ++ (regBits y ++ n)

/-- The word of an instruction (R72, R74). -/
def encode : Instr → Word
  | .cls => 0x00E0
  | .ret => 0x00EE
  | .jp nnn => formatA 0x1 nnn
  | .call nnn => formatA 0x2 nnn
  | .seImm x nn => formatXI 0x3 x nn
  | .sneImm x nn => formatXI 0x4 x nn
  | .seReg x y => formatXYN 0x5 x y 0x0
  | .ldImm x nn => formatXI 0x6 x nn
  | .addImm x nn => formatXI 0x7 x nn
  | .ldReg x y => formatXYN 0x8 x y 0x0
  | .orReg x y => formatXYN 0x8 x y 0x1
  | .andReg x y => formatXYN 0x8 x y 0x2
  | .xorReg x y => formatXYN 0x8 x y 0x3
  | .addReg x y => formatXYN 0x8 x y 0x4
  | .subReg x y => formatXYN 0x8 x y 0x5
  | .shr x y => formatXYN 0x8 x y 0x6
  | .subnReg x y => formatXYN 0x8 x y 0x7
  | .shl x y => formatXYN 0x8 x y 0xE
  | .sneReg x y => formatXYN 0x9 x y 0x0
  | .ldI nnn => formatA 0xA nnn
  | .jpV0 nnn => formatA 0xB nnn
  | .rnd x nn => formatXI 0xC x nn
  | .drw x y n => formatXYN 0xD x y n
  | .skp x => formatXI 0xE x 0x9E
  | .sknp x => formatXI 0xE x 0xA1
  | .ldVxDT x => formatXI 0xF x 0x07
  | .ldVxK x => formatXI 0xF x 0x0A
  | .ldDTVx x => formatXI 0xF x 0x15
  | .ldSTVx x => formatXI 0xF x 0x18
  | .addI x => formatXI 0xF x 0x1E
  | .ldF x => formatXI 0xF x 0x29
  | .ldB x => formatXI 0xF x 0x33
  | .ldMemVx x => formatXI 0xF x 0x55
  | .ldVxMem x => formatXI 0xF x 0x65

/-- The first byte in memory of an opcode: bits 15:8 (R52). -/
def firstByte (op : Word) : Byte := op.extractLsb' 8 8

/-- The second byte in memory of an opcode: bits 7:0 (R52). -/
def secondByte (op : Word) : Byte := op.extractLsb' 0 8

/-- The opcode a table word stands for: every bit above `nbits` is 0; all rows have 16 bits (R70). -/
def tableOpcode (nbits w : Nat) : Word := BitVec.ofNat 16 (w % 2 ^ nbits)

/-- The instruction the decoder reads from a table word laid out in memory, first byte high (R52). -/
def decodeTableWord (nbits w : Nat) : Option Instr :=
  instrOf (decodeBytes (firstByte (tableOpcode nbits w)) (secondByte (tableOpcode nbits w)))

end Sys2Proof
end

