-- ==== Sys2Proof/Config.lean ====
section
/-! DEFINITION. The parameters of the machine: the font table (R8 (a), R27) and the free random bytes (R8 (b), R121). -/

namespace Sys2Proof.Config

/-- A font table: FONT_LEN = 80 bytes (R7), glyph `d` at positions `5*d` to `5*d + 4`, top row first (R27). -/
abbrev Font := Vector Byte 80

/-- The default table of R27. DESIGN CHOICE (log entry 2), unsafe: the spec leaves FONT a parameter
(decision D16) and takes this table from general knowledge; `State.initCore` takes any table. -/
def defaultFont : Font := #v[
  0xF0, 0x90, 0x90, 0x90, 0xF0,
  0x20, 0x60, 0x20, 0x20, 0x70,
  0xF0, 0x10, 0xF0, 0x80, 0xF0,
  0xF0, 0x10, 0xF0, 0x10, 0xF0,
  0x90, 0x90, 0xF0, 0x10, 0x10,
  0xF0, 0x80, 0xF0, 0x10, 0xF0,
  0xF0, 0x80, 0xF0, 0x90, 0xF0,
  0xF0, 0x10, 0x20, 0x40, 0x40,
  0xF0, 0x90, 0xF0, 0x90, 0xF0,
  0xF0, 0x90, 0xF0, 0x10, 0xF0,
  0xF0, 0x90, 0xF0, 0x90, 0x90,
  0xE0, 0x90, 0xE0, 0x90, 0xE0,
  0xF0, 0x80, 0x80, 0x80, 0xF0,
  0xE0, 0x90, 0x90, 0x90, 0xE0,
  0xF0, 0x80, 0xF0, 0x80, 0xF0,
  0xF0, 0x80, 0xF0, 0x80, 0x80]

/-- The random bytes `RND` (R8 (b), R121, decision D12): a FREE VALUE, "any value 0..255, unrelated to any
earlier or later value". No body: nothing can be proved of a value of it. DESIGN CHOICE (log entry 1), safe:
the k-th executed `Cxnn` of a machine reads `rnd k`. -/
opaque rnd : Nat → Byte

end Sys2Proof.Config
end

