-- ==== Sys2Proof/Machine/State.lean ====
section
/-! DEFINITION. The state of the core (spec/10_state.md), its reset value (spec/70_reset_and_hazards.md R200), and why a step
could stop. -/

namespace Sys2Proof.Machine

/-- `MEM` (R27, R50): address and byte of every cell that differs from its reset contents, addresses rising. -/
abbrev Memory := List Host.Cell

/-- `FB` (R33): `fb[r][c]` is the cell in row `r` (0..31) and column `c` (0..63). -/
abbrev Display := Vector (Vector Bool 64) 32

/-- A value of `FAULT`, 3 bits (R36); the codes are those of the table of R160. -/
abbrev FaultCode := BitVec 3

/-- The complete state of the core: the tuple `(MEM, V, I, PC, STACK, SP, DT, ST, KEY, FB, DIRTY, HALT, FAULT)` of
spec/10_state.md, and the model's own counter `draws`. -/
structure State where
  /-- `MEM`: 4096 bytes, code and data (R27, R50). -/
  mem : Memory
  /-- `V[0..15]`; `V[15]` is the flag register `VF` (R20, R21). -/
  v : Vector Byte 16
  /-- `I`, the address register (R23). -/
  i : Word
  /-- `PC` (R24). -/
  pc : Word
  /-- `STACK[0..15]`, the return addresses (R29). -/
  stack : Vector Word 16
  /-- `SP`, the number of valid stack entries, 0..16 (R29). -/
  sp : Fin 17
  /-- `DT`, the delay timer (R31). -/
  dt : Byte
  /-- `ST`, the sound timer (R31). -/
  st : Byte
  /-- `KEY[0..15]`, the keypad latch, `true` = pressed (R32). -/
  key : Vector Bool 16
  /-- `FB`, the display cells (R33). -/
  fb : Display
  /-- `DIRTY`, the display dirty flag (R34). -/
  dirty : Bool
  /-- `HALT`, the fatal-error latch (R36). -/
  halt : Bool
  /-- `FAULT`, the cause of the fatal error (R36). -/
  fault : FaultCode
  /-- The model's own field: how many bytes `RND` the machine has consumed (log entry 1). The next one is
  `Config.rnd draws` (R121). -/
  draws : Nat
  deriving DecidableEq, Repr

/-- Reasons for a stop that is no transition of the machine. There are none: no constructor, so no step faults. Every
error of R160 is a transition: an unknown opcode changes nothing (R161), a fatal error latches `HALT` and `FAULT`
(R166). Safe and exact. -/
inductive Fault where
  deriving DecidableEq, Repr

/-- Reasons for an instruction without a meaning. -/
inductive Refusal where
  /-- Raised by an arm of `exec` whose instruction has no meaning yet. No arm raises it: all 34 are modelled. Safe. -/
  | notModelled (mnemonic : String)
  deriving DecidableEq, Repr

/-- What a meaning answers. -/
abbrev Result := Host.Outcome State Fault Refusal

/-- The machine right after `initialize` with the default font (R200): memory with nothing listed, so the font at
0x050 to 0x09F and zeros elsewhere; `PC` at 0x0200; everything else cleared. `draws` is 0 by DESIGN CHOICE (log entry 1). -/
def State.reset : State where
  mem := []
  v := Vector.replicate 16 0
  i := 0
  pc := 0x0200
  stack := Vector.replicate 16 0
  sp := 0
  dt := 0
  st := 0
  key := Vector.replicate 16 false
  fb := Vector.replicate 32 (Vector.replicate 64 false)
  dirty := false
  halt := false
  fault := 0
  draws := 0

end Sys2Proof.Machine
end

