-- ==== Sys2Proof/Machine/Ops.lean ====
section
/-! DEFINITION. The named operations over memory and registers: spec/20_memory.md R50 to R52, spec/10_state.md R20 to R25,
taking an error (spec/60_exceptions.md R161, R166, R171) and leaving one (R200). -/

namespace Sys2Proof.Machine

/-! ### Memory -/

/-- What a cell holds when nothing has written it since `initialize`: the font at 0x050 to 0x09F, 0x00 elsewhere
(R27, R200). -/
def Memory.unlisted (a : Nat) : Byte :=
  if h : 0x050 ≤ a ∧ a < 0x0A0 then Config.defaultFont[a - 0x050]'(by omega) else 0

/-- The cell an address names: every address is reduced modulo 4096 (R51). -/
def Memory.cellOf (a : Nat) : Nat := a % 4096

/-- The first listed byte of cell `a`, else its reset contents. -/
def Memory.lookup : Memory → Nat → Byte
  | [], a => Memory.unlisted a
  | c :: rest, a => if c.1 = a then c.2 else Memory.lookup rest a

/-- The list without cell `a`. -/
def Memory.erase (m : Memory) (a : Nat) : Memory := m.filter (fun c => c.1 != a)

/-- The list with cell `a` added in its place by address. -/
def Memory.place (a : Nat) (b : Byte) : Memory → Memory
  | [] => [(a, b)]
  | c :: rest => if a < c.1 then (a, b) :: c :: rest else c :: Memory.place a b rest

/-- `MemRead(a, 1)`: the byte at `a mod 4096` (R50, R51). -/
def Memory.read (m : Memory) (a : Nat) : Byte := m.lookup (Memory.cellOf a)

/-- `MemWrite(a, 1, b)`: the byte at `a mod 4096` becomes `b` (R50, R51). Writing the reset contents removes the entry. -/
def Memory.write (m : Memory) (a : Nat) (b : Byte) : Memory :=
  let k := Memory.cellOf a
  if b = Memory.unlisted k then m.erase k else Memory.place k b (m.erase k)

/-- The canonical form: addresses strictly rising and below 4096, no entry equal to what it reads as unlisted. -/
def Memory.wf (m : Memory) : Bool :=
  decide (m.Pairwise (fun c d => c.1 < d.1)) && m.all (fun c => decide (c.1 < 4096) && c.2 != Memory.unlisted c.1)

/-- `MemRead(a, 1)` in a state. -/
def State.memRead (s : State) (a : Nat) : Byte := s.mem.read a

/-- `MemWrite(a, 1, b)` in a state. -/
def State.memWrite (s : State) (a : Nat) (b : Byte) : State := { s with mem := s.mem.write a b }

/-- `Fetch(PC)`: the 16-bit big-endian value of the bytes at `PC` and `PC + 1` (R52), at any `PC`, odd or even (R26, R54). -/
def State.fetch (s : State) : Word := opcodeOfBytes (s.memRead s.pc.toNat) (s.memRead (s.pc.toNat + 1))

/-! ### Registers -/

/-- `V[x]` (R20). -/
def State.reg (s : State) (x : RegIx) : Byte := s.v[x]

/-- `V[x] <- b` (R20): no register is hard-wired. -/
def State.setReg (s : State) (x : RegIx) (b : Byte) : State := { s with v := s.v.set x b }

/-- `PC <- target`. -/
def State.setPc (s : State) (target : Word) : State := { s with pc := target }

/-- `I <- a`. -/
def State.setI (s : State) (a : Word) : State := { s with i := a }

/-- `PC <- (PC + 2) mod 65536` (R25). -/
def State.advance (s : State) : State := s.setPc (s.pc + 2)

/-- A conditional skip: `PC` advances by 4 when the condition holds, else by 2, modulo 65536 (R25). -/
def State.skipIf (s : State) (c : Bool) : State := s.setPc (if c then s.pc + 4 else s.pc + 2)

/-! ### Errors -/

/-- `StackOverflow`, code 2 (R160, R162). -/
def FaultCode.stackOverflow : FaultCode := 2

/-- `StackUnderflow`, code 3 (R160, R163). -/
def FaultCode.stackUnderflow : FaultCode := 3

/-- `InvalidKeyIndex`, code 5 (R160, R165). -/
def FaultCode.invalidKeyIndex : FaultCode := 5

/-- Taking a fatal error (R166): the instruction is abandoned, `HALT <- 1`, `FAULT <- code`, nothing else changes; `PC`
still points at the faulting instruction. No handler is entered (R180). -/
def State.raiseFatal (s : State) (code : FaultCode) : State := { s with halt := true, fault := code }

/-- An unknown opcode: reported, no state changes at all, `PC` is held (R161). -/
def State.unknownOpcode (s : State) : State := s

/-- A step of a halted machine fetches nothing, executes nothing and changes no state (R171). -/
def State.haltedStep (s : State) : State := s

/-- Byte `k` of a font table. -/
def fontByte (font : Config.Font) (k : Fin 80) : Byte := font[k]

/-- The memory `initialize` leaves: 0x00 everywhere, then `MEM[0x050 + k] <- FONT[k]` (R200). The list starts from the
default font, and each byte of `font` is written over it. -/
def fontMemory (font : Config.Font) : Memory :=
  (List.finRange 80).foldl (fun m k => m.write (0x050 + k.val) (fontByte font k)) []

/-- The command `initialize` (R200), the only way out of a fatal error (R171, R180): every piece of the spec's state takes
its reset value, for the given FONT. The count of consumed RND bytes goes on: the bytes after an `initialize` are new
draws (log entry 1). -/
def State.initCore (s : State) (font : Config.Font) : State :=
  { State.reset with mem := fontMemory font, draws := s.draws }

end Sys2Proof.Machine
end

