-- ==== Sys2Proof/Machine/Flags.lean ====
section
/-! DEFINITION. The flag computations, all delivered in `VF` as 0 or 1 (spec/42_alu.md R122, spec/10_state.md R21), and the order
of the two writes (R22). -/

namespace Sys2Proof.Machine

/-- A flag as the 8-bit value 0 or 1 (R21). -/
def flagByte (f : Bool) : Byte := if f then 1 else 0

/-- Carry of `8xy4`: the true sum does not fit in 8 bits (R116, R123). -/
def carryFlag (a b : Byte) : Bool := decide (a.toNat + b.toNat > 255)

/-- Not-borrow of `8xy5` and `8xy7`: `a >= b`, equality included (R117, R119, R123). -/
def noBorrowFlag (a b : Byte) : Bool := decide (a.toNat ≥ b.toNat)

/-- The bit `8xy6` shifts out: bit 0 (R118). -/
def lowBitFlag (a : Byte) : Bool := a.getLsbD 0

/-- The bit `8xyE` shifts out: bit 7 (R120). -/
def highBitFlag (a : Byte) : Bool := a.getLsbD 7

/-- `V[15] <- flag` (R21). -/
def State.setFlag (s : State) (f : Bool) : State := s.setReg 15 (flagByte f)

/-- `V[15] <- flag`, then `V[x] <- result`, so that with `x = 15` the result wins (R22, decision D6). -/
def State.setFlagThenReg (s : State) (f : Bool) (x : RegIx) (result : Byte) : State := (s.setFlag f).setReg x result

end Sys2Proof.Machine
end

