-- ==== Sys2Proof/Machine/Operands.lean ====
section
/-! DEFINITION. The operand forms: immediates (spec/30_encoding.md R73), `I`-based addresses (spec/20_memory.md R51), register
ranges (spec/43_index_memory.md R134, R135), key indices (spec/45_timer_keypad.md R153 to R155), BCD digits (R133) and
glyph addresses (R132). -/

namespace Sys2Proof.Machine

/-- `zext_16(nnn)`: an address immediate is used exactly as extracted (R73). -/
def zext16 (nnn : Addr) : Word := nnn.setWidth 16

/-- `EA(k) = (I + k) mod 4096` (R51). -/
def State.ea (s : State) (k : Nat) : Nat := (s.i.toNat + k) % 4096

/-- The indices `0..x` inclusive, ascending (R134, R135). -/
def regsUpTo (x : RegIx) : List RegIx := (List.finRange 16).filter (fun k => k ≤ x)

/-- The key a register value names, if it is in 0..15 (R153, R165): the index is not masked. -/
def keyIndex (b : Byte) : Option (Fin 16) := if h : b.toNat < 16 then some ⟨b.toNat, h⟩ else none

/-- `KEY[k]` (R32). -/
def State.keyDown (s : State) (k : Fin 16) : Bool := s.key[k]

/-- The least `k` with `KEY[k] = 1`, if any (R155, decision D11). -/
def State.lowestKey (s : State) : Option (Fin 16) := (List.finRange 16).find? (fun k => s.keyDown k)

/-- The value of a key index as a register value (R155). -/
def keyByte (k : Fin 16) : Byte := BitVec.ofNat 8 k.val

/-- The hundreds digit (R133). -/
def bcdHundreds (b : Byte) : Byte := BitVec.ofNat 8 (b.toNat / 100)

/-- The tens digit (R133). -/
def bcdTens (b : Byte) : Byte := BitVec.ofNat 8 (b.toNat / 10 % 10)

/-- The ones digit (R133). -/
def bcdOnes (b : Byte) : Byte := BitVec.ofNat 8 (b.toNat % 10)

/-- `0x050 + 5 * V[x]`, all 8 bits of `V[x]` (R132, decision D25). -/
def glyphAddress (b : Byte) : Word := BitVec.ofNat 16 (0x050 + 5 * b.toNat)

/-- `(I + V[x]) mod 4096` (R131). -/
def indexSum (i : Word) (b : Byte) : Word := BitVec.ofNat 16 ((i.toNat + b.toNat) % 4096)

/-- `(I + x + 1) mod 65536`, `x` the field value (R135, decision D3). -/
def indexAfterLoad (i : Word) (x : RegIx) : Word := BitVec.ofNat 16 (i.toNat + x.val + 1)

/-- `zext_16(nnn) + zext_16(V[0])`, not reduced modulo 4096 (R93, decision D2). -/
def offsetTarget (nnn : Addr) (v0 : Byte) : Word := BitVec.ofNat 16 (nnn.toNat + v0.toNat)

end Sys2Proof.Machine
end

