-- ==== Sys2Proof/Machine/Alu.lean ====
section
/-! DEFINITION. Register load, arithmetic and logic: 6xnn, 7xnn, 8xy0 to 8xyE, Cxnn (spec/42_alu.md). Operands are read before
any write (R22). -/

namespace Sys2Proof.Machine

/-- `6xnn` (R110). -/
def execLdImm (x : RegIx) (nn : Byte) (s : State) : Result := .next (s.setReg x nn).advance

/-- `7xnn` (R111): modulo 256, no flag. -/
def execAddImm (x : RegIx) (nn : Byte) (s : State) : Result := .next (s.setReg x (s.reg x + nn)).advance

/-- `8xy0` (R112). -/
def execLdReg (x y : RegIx) (s : State) : Result := .next (s.setReg x (s.reg y)).advance

/-- `8xy1` (R113): `VF` is not written. -/
def execOrReg (x y : RegIx) (s : State) : Result := .next (s.setReg x (s.reg x ||| s.reg y)).advance

/-- `8xy2` (R114). -/
def execAndReg (x y : RegIx) (s : State) : Result := .next (s.setReg x (s.reg x &&& s.reg y)).advance

/-- `8xy3` (R115). -/
def execXorReg (x y : RegIx) (s : State) : Result := .next (s.setReg x (s.reg x ^^^ s.reg y)).advance

/-- `8xy4` (R116). -/
def execAddReg (x y : RegIx) (s : State) : Result :=
  .next (s.setFlagThenReg (carryFlag (s.reg x) (s.reg y)) x (s.reg x + s.reg y)).advance

/-- `8xy5` (R117). -/
def execSubReg (x y : RegIx) (s : State) : Result :=
  .next (s.setFlagThenReg (noBorrowFlag (s.reg x) (s.reg y)) x (s.reg x - s.reg y)).advance

/-- `8xy6` (R118): the operand is `V[x]`; the `y` field is ignored. -/
def execShr (x _y : RegIx) (s : State) : Result :=
  .next (s.setFlagThenReg (lowBitFlag (s.reg x)) x (s.reg x >>> 1)).advance

/-- `8xy7` (R119). -/
def execSubnReg (x y : RegIx) (s : State) : Result :=
  .next (s.setFlagThenReg (noBorrowFlag (s.reg y) (s.reg x)) x (s.reg y - s.reg x)).advance

/-- `8xyE` (R120): the operand is `V[x]`; the `y` field is ignored. -/
def execShl (x _y : RegIx) (s : State) : Result :=
  .next (s.setFlagThenReg (highBitFlag (s.reg x)) x (s.reg x <<< 1)).advance

/-- `Cxnn` (R121) for a given byte `RND`. -/
def State.randomAnd (s : State) (rnd : Byte) (x : RegIx) (nn : Byte) : State := (s.setReg x (rnd &&& nn)).advance

/-- `Cxnn` (R121): the byte `RND` of this step is a free value, the next of the machine's draws (decision D12, log entry 1). -/
def execRnd (x : RegIx) (nn : Byte) (s : State) : Result :=
  .next { s.randomAnd (Config.rnd s.draws) x nn with draws := s.draws + 1 }

end Sys2Proof.Machine
end

