-- ==== Sys2Proof/Machine/Display.lean ====
section
/-! DEFINITION. The display: 00E0, Dxyn (spec/44_display.md). -/

namespace Sys2Proof.Machine

/-- A display with every cell 0 (R33, R140). -/
def clearDisplay : Display := Vector.replicate 32 (Vector.replicate 64 false)

/-- `FB[r][c]` (R33). -/
def cellAt (d : Display) (r : Fin 32) (c : Fin 64) : Bool := d[r][c]

/-- `FB[r][c] <- FB[r][c] ^ 1` (R141). -/
def toggleCell (d : Display) (r : Fin 32) (c : Fin 64) : Display := d.set r (d[r].set c (!d[r][c]))

/-- `00E0` (R140): `DIRTY` is set even when the display was already clear. -/
def execCls (s : State) : Result := .next { s with fb := clearDisplay, dirty := true }.advance

/-- The row of pixel row `dy`: `(y0 + dy) mod 32` (R141). -/
def spriteRow (y0 : Byte) (dy : Nat) : Fin 32 := ⟨(y0.toNat + dy) % 32, by omega⟩

/-- The column of pixel column `dx`: `(x0 + dx) mod 64` (R141). -/
def spriteCol (x0 : Byte) (dx : Nat) : Fin 64 := ⟨(x0.toNat + dx) % 64, by omega⟩

/-- Bit `7 - dx` of a sprite byte: bit 7 is `dx = 0` (R141, "MSB-first"). -/
def spriteBit (row : Byte) (dx : Nat) : Bool := row.getLsbD (7 - dx)

/-- One pixel whose sprite bit is 1, on a display and the collision so far (R141): a cell that is already 1 is a collision. -/
def plot (r : Fin 32) (c : Fin 64) (p : Display × Bool) : Display × Bool := (toggleCell p.1 r c, p.2 || cellAt p.1 r c)

/-- One sprite row: `dx` from 0 to 7 (R141). -/
def drawRow (x0 : Byte) (r : Fin 32) (row : Byte) (p : Display × Bool) : Display × Bool :=
  (List.range 8).foldl (fun p dx => if spriteBit row dx then plot r (spriteCol x0 dx) p else p) p

/-- The sprite: row `dy` is the byte at `(I + dy) mod 4096`, `dy` from 0 to `n - 1` (R141). -/
def State.drawSprite (s : State) (x0 y0 : Byte) (n : Nat) (p : Display × Bool) : Display × Bool :=
  (List.range n).foldl (fun p dy => drawRow x0 (spriteRow y0 dy) (s.memRead (s.ea dy)) p) p

/-- `Dxyn` (R141): coordinates are read before `VF` is written (decision D14); `VF` is the collision; `DIRTY <- 1` always. -/
def execDrw (x y : RegIx) (n : Nibble) (s : State) : Result :=
  let p := s.drawSprite (s.reg x) (s.reg y) n.toNat (s.fb, false)
  .next ({ s with fb := p.1, dirty := true }.setFlag p.2).advance

end Sys2Proof.Machine
end

