-- ==== Sys2Proof/Machine/Flow.lean ====
section
/-! DEFINITION. Control transfer: 00EE, 1nnn, 2nnn, Bnnn (spec/40_flow.md). -/

namespace Sys2Proof.Machine

/-- `00EE` (R90): pop; the popped entry is the address of the call, so the return advances past it (decision D4). The
entry keeps its value. `StackUnderflow` when `SP = 0`. -/
def execRet (s : State) : Result :=
  if h : s.sp.val = 0 then .next (s.raiseFatal FaultCode.stackUnderflow)
  else .next { s with sp := ⟨s.sp.val - 1, by omega⟩, pc := s.stack[s.sp.val - 1]'(by omega) + 2 }

/-- `1nnn` (R91). -/
def execJp (nnn : Addr) (s : State) : Result := .next (s.setPc (zext16 nnn))

/-- `2nnn` (R92): push the address of this instruction (decision D4), jump. `StackOverflow` when `SP = 16`. -/
def execCall (nnn : Addr) (s : State) : Result :=
  if h : s.sp.val < 16 then
    .next { s with stack := s.stack.set s.sp.val s.pc h, sp := ⟨s.sp.val + 1, by omega⟩, pc := zext16 nnn }
  else .next (s.raiseFatal FaultCode.stackOverflow)

/-- `Bnnn` (R93): always register 0. -/
def execJpV0 (nnn : Addr) (s : State) : Result := .next (s.setPc (offsetTarget nnn (s.reg 0)))

end Sys2Proof.Machine
end

