-- ==== Sys2Proof/Machine/IndexMemory.lean ====
section
/-! DEFINITION. Address register and memory: Annn, Fx1E, Fx29, Fx33, Fx55, Fx65 (spec/43_index_memory.md). -/

namespace Sys2Proof.Machine

/-- `Annn` (R130). -/
def execLdI (nnn : Addr) (s : State) : Result := .next (s.setI (zext16 nnn)).advance

/-- `Fx1E` (R131): modulo 4096, no flag. -/
def execAddI (x : RegIx) (s : State) : Result := .next (s.setI (indexSum s.i (s.reg x))).advance

/-- `Fx29` (R132). -/
def execLdF (x : RegIx) (s : State) : Result := .next (s.setI (glyphAddress (s.reg x))).advance

/-- The three stores of `Fx33`, hundreds first (R133). -/
def State.storeBcd (s : State) (b : Byte) : State :=
  ((s.memWrite (s.ea 0) (bcdHundreds b)).memWrite (s.ea 1) (bcdTens b)).memWrite (s.ea 2) (bcdOnes b)

/-- `Fx33` (R133): `I` is unchanged. -/
def execLdB (x : RegIx) (s : State) : Result := .next (s.storeBcd (s.reg x)).advance

/-- The stores of `Fx55`: `V[k]` at `(I + k) mod 4096` for each `k` of the list in order (R134). -/
def State.storeRegs (s : State) (ks : List RegIx) : State :=
  { s with mem := ks.foldl (fun m (k : RegIx) => m.write (s.ea k.val) (s.reg k)) s.mem }

/-- `Fx55` (R134): `I` is unchanged (decision D23). -/
def execLdMemVx (x : RegIx) (s : State) : Result := .next (s.storeRegs (regsUpTo x)).advance

/-- The loads of `Fx65`: `V[k]` from `(I + k) mod 4096` for each `k` of the list in order (R135). -/
def State.loadRegs (s : State) (ks : List RegIx) : State :=
  { s with v := ks.foldl (fun v (k : RegIx) => v.set k (s.memRead (s.ea k.val))) s.v }

/-- `Fx65` (R135): the addresses use the `I` from before; then `I <- (I + x + 1) mod 65536`. -/
def execLdVxMem (x : RegIx) (s : State) : Result :=
  .next ((s.loadRegs (regsUpTo x)).setI (indexAfterLoad s.i x)).advance

end Sys2Proof.Machine
end

