-- ==== Sys2Proof/Machine/TimerKeypad.lean ====
section
/-! DEFINITION. Timers and keypad: Fx07, Fx15, Fx18, Ex9E, ExA1, Fx0A (spec/45_timer_keypad.md). -/

namespace Sys2Proof.Machine

/-- `Fx07` (R150, decision D13). -/
def execLdVxDT (x : RegIx) (s : State) : Result := .next (s.setReg x s.dt).advance

/-- `Fx15` (R151, decision D13). -/
def execLdDTVx (x : RegIx) (s : State) : Result := .next { s with dt := s.reg x }.advance

/-- `Fx18` (R152, decision D13). -/
def execLdSTVx (x : RegIx) (s : State) : Result := .next { s with st := s.reg x }.advance

/-- `Ex9E` (R153): skip if the key named by `V[x]` is pressed. `InvalidKeyIndex` when `V[x] > 15`. -/
def execSkp (x : RegIx) (s : State) : Result :=
  match keyIndex (s.reg x) with
  | none => .next (s.raiseFatal FaultCode.invalidKeyIndex)
  | some k => .next (s.skipIf (s.keyDown k))

/-- `ExA1` (R154): skip if the key named by `V[x]` is not pressed. `InvalidKeyIndex` when `V[x] > 15`. -/
def execSknp (x : RegIx) (s : State) : Result :=
  match keyIndex (s.reg x) with
  | none => .next (s.raiseFatal FaultCode.invalidKeyIndex)
  | some k => .next (s.skipIf (!s.keyDown k))

/-- `Fx0A` (R155): with no key pressed nothing changes and the next step executes it again; else the least pressed
key goes to `V[x]`. -/
def execLdVxK (x : RegIx) (s : State) : Result :=
  match s.lowestKey with
  | none => .next s
  | some k => .next (s.setReg x (keyByte k)).advance

end Sys2Proof.Machine
end

