-- ==== Sys2Proof/Machine/Step.lean ====
section
/-! DEFINITION. The `step` command (spec/60_exceptions.md R170): exactly one instruction, or one reported error. -/

namespace Sys2Proof.Machine

/-- The `step` command (R170), the checks in the order of R167: `HALT`, fetch, decode, the instruction's own check. Its
outcome is no state (R13) and stands in `State.report` (Machine/Commands.lean). -/
def step (s : State) : Host.Outcome State Fault Refusal :=
  if s.halt then .next s.haltedStep
  else
    match decode s.fetch with
    | .known i => exec i s
    | .unknown _ => .next s.unknownOpcode

/-- The state with a table word stored where `step` fetches: the first byte (bits 15:8) at `PC`, the second at `PC + 1`
(R52). A program comes to run by `load`, from outside (R204, log entry 6); nothing else is changed. -/
def State.withFetchWord (s : State) (nbits w : Nat) : State :=
  (s.memWrite s.pc.toNat (firstByte (tableOpcode nbits w))).memWrite (s.pc.toNat + 1) (secondByte (tableOpcode nbits w))

end Sys2Proof.Machine
end

