-- ==== Sys2Proof/Machine/Commands.lean ====
section
/-! DEFINITION. The host's command ports (spec/60_exceptions.md R168): the outcome of `step`, `load`, `tick`, `setKeys`,
`consumeDirtyFlag`, `getDisplay`, the level outputs, and a session that takes the commands one at a time (R169, R202).
`initialize` is `State.initCore` in Machine/Ops.lean. -/

namespace Sys2Proof.Machine

/-- The outcome of a `step` (R170): an output of the command, not state (R13). -/
inductive Report where
  | ok
  /-- `DecodeError(op, PC)` (R161, R178). -/
  | decodeError (op pc : Word)
  /-- `Fatal(code)` (R166, R171). -/
  | fatal (code : FaultCode)
  deriving DecidableEq, Repr

/-- The state after a `step` command (R170). `step` always answers a next state; the last arm is never taken. -/
def State.stepped (s : State) : State :=
  match step s with
  | .next t => t
  | .fault r => nomatch r
  | .refused _ => s

/-- The outcome of a `step` command issued in this state (R170): a halted machine answers `Fatal(FAULT)` again (R171), an
unknown opcode `DecodeError(op, PC)` (R161), an instruction that raised a fatal error `Fatal(code)` (R166), any other `Ok`. -/
def State.report (s : State) : Report :=
  if s.halt then .fatal s.fault
  else
    match decode s.fetch with
    | .unknown op => .decodeError op s.pc
    | .known _ => if s.stepped.halt then .fatal s.stepped.fault else .ok

/-- The answer of `load` (R204). -/
inductive LoadAnswer where
  | accepted
  | refused
  deriving DecidableEq, Repr

/-- The bytes of an image at ascending addresses from `a` (R204). -/
def Memory.storeFrom (m : Memory) (a : Nat) : List Byte → Memory
  | [] => m
  | b :: rest => Memory.storeFrom (m.write a b) (a + 1) rest

/-- `load(image)` (R204, decision D17): accepted when the image has at most 3584 bytes and the machine is not halted;
byte `k` lands at `0x200 + k`. Refused, it changes nothing. When it is admitted at all is the session's (`Session.perform`). -/
def State.load (s : State) (image : List Byte) : LoadAnswer × State :=
  if image.length ≤ 3584 ∧ s.halt = false then (.accepted, { s with mem := s.mem.storeFrom 0x200 image })
  else (.refused, s)

/-- One decrement of a counter, never below zero (R173). -/
def countDown (t : Byte) : Byte := if t.toNat > 0 then t - 1 else t

/-- `tick()` (R173): `audible` is tested before the decrement. -/
def State.tick (s : State) : Bool × State := (decide (s.st.toNat > 0), { s with dt := countDown s.dt, st := countDown s.st })

/-- `setKeys(k[0..15])` (R175): all 16 bits are replaced. -/
def State.setKeys (s : State) (k : Vector Bool 16) : State := { s with key := k }

/-- `consumeDirtyFlag()` (R176): the old `DIRTY`, which is cleared. -/
def State.consumeDirtyFlag (s : State) : Bool × State := (s.dirty, { s with dirty := false })

/-- `getDisplay()` (R177): the cells row-major, element `64*r + c` is `FB[r][c]`. It changes no state. -/
def State.getDisplay (s : State) : Vector Bool 2048 :=
  Vector.ofFn (fun k : Fin 2048 => cellAt s.fb ⟨k.val / 64, by omega⟩ ⟨k.val % 64, by omega⟩)

/-- `SOUND = 1 if ST != 0 else 0` (R174). -/
def State.sound (s : State) : Bool := s.st != 0

/-- The level outputs (R168): valid after every command. -/
structure Outputs where
  sound : Bool
  dirty : Bool
  halt : Bool
  fault : FaultCode
  deriving DecidableEq, Repr

/-- The level outputs of a state (R174, R176, R36). -/
def State.outputs (s : State) : Outputs := ⟨s.sound, s.dirty, s.halt, s.fault⟩

/-- One command of the host (R168). -/
inductive Command where
  /-- `initialize` with the given FONT (R200). -/
  | initCore (font : Config.Font)
  | load (image : List Byte)
  | step
  | tick
  | setKeys (k : Vector Bool 16)
  | consumeDirtyFlag
  | getDisplay
  deriving DecidableEq, Repr

/-- What a command returns to the host (R168). -/
inductive Answer where
  | none
  | load (a : LoadAnswer)
  | step (r : Report)
  | audible (b : Bool)
  | dirty (b : Bool)
  | display (bits : Vector Bool 2048)
  deriving DecidableEq, Repr

/-- Whether a `load` is still admissible (R204: "only between `initialize` and the first `step`", one load per machine).
This belongs to the environment and is no state of the core (R13); log entry 4. -/
inductive Phase where
  /-- After `initialize`, before the first `step` and before an accepted `load`. -/
  | awaitingLoad
  /-- After the first `step` or an accepted `load`. -/
  | running
  deriving DecidableEq, Repr

/-- The core and where the boot order stands (R202). -/
structure Session where
  core : State
  phase : Phase
  deriving DecidableEq, Repr

/-- Every execution starts with `initialize`, whatever the state was before (R12, R200, R202). -/
def Session.boot (before : State) (font : Config.Font) : Session := ⟨before.initCore font, .awaitingLoad⟩

/-- A `load` in a session: admitted once, before the first `step` (R204). -/
def Session.performLoad (h : Session) (image : List Byte) : Answer × Session :=
  match h.phase with
  | .running => (.load .refused, h)
  | .awaitingLoad =>
    match h.core.load image with
    | (.accepted, t) => (.load .accepted, ⟨t, .running⟩)
    | (.refused, t) => (.load .refused, ⟨t, .awaitingLoad⟩)

/-- One command, one atomic transition (R6, R169), with what it returns. -/
def Session.perform (h : Session) (c : Command) : Answer × Session :=
  match c with
  | .initCore font => (.none, Session.boot h.core font)
  | .load image => h.performLoad image
  | .step => (.step h.core.report, ⟨h.core.stepped, .running⟩)
  | .tick => (.audible h.core.tick.1, ⟨h.core.tick.2, h.phase⟩)
  | .setKeys k => (.none, ⟨h.core.setKeys k, h.phase⟩)
  | .consumeDirtyFlag => (.dirty h.core.consumeDirtyFlag.1, ⟨h.core.consumeDirtyFlag.2, h.phase⟩)
  | .getDisplay => (.display h.core.getDisplay, h)

/-- A sequence of commands in order (R12, R169, decision D18: any sequence). -/
def Session.run (h : Session) : List Command → Session
  | [] => h
  | c :: rest => Session.run (h.perform c).2 rest

end Sys2Proof.Machine
end

