-- ==== Sys2Proof/Safety.lean ====
section
/-! DEFINITION. What counts as a legal state, a reachable session and a run that has ended, in the terms the statements use. -/

namespace Sys2Proof.Machine

/-- `HALT` and `FAULT` agree (R35, R36): not halted with `FAULT = 0`, or halted with one of the codes 2, 3, 5. -/
def State.latchOk (s : State) : Bool :=
  if s.halt then s.fault == 2 || s.fault == 3 || s.fault == 5 else s.fault == 0

/-- The invariant of the core: the error latch is legal (R35, R36), and the memory is in its canonical form, which is the
model's own choice (log entry 12, DESIGN CHOICE). -/
def State.Inv (s : State) : Prop := s.mem.wf = true ∧ s.latchOk = true

/-- A session some sequence of commands leads to from an `initialize` (R12). -/
def Session.Reachable (h : Session) : Prop := ∃ before font cs, h = (Session.boot before font).run cs

/-- The end of a run (R213): `PC` holds the address of a jump to itself and `HALT = 0`. -/
def State.ended (s : State) : Prop := s.halt = false ∧ ∃ nnn, decode s.fetch = .known (.jp nnn) ∧ s.pc = zext16 nnn

/-- The registers an instruction may write: its destination, and `VF` for the six flag writers (R20, R21). -/
def mayWriteReg : Instr → RegIx → Bool
  | .ldImm x _, r | .addImm x _, r | .ldReg x _, r | .orReg x _, r | .andReg x _, r | .xorReg x _, r | .rnd x _, r
  | .ldVxDT x, r | .ldVxK x, r => r = x
  | .addReg x _, r | .subReg x _, r | .shr x _, r | .subnReg x _, r | .shl x _, r => r = x || r = 15
  | .drw _ _ _, r => r = 15
  | .ldVxMem x, r => r ≤ x
  | .cls, _ | .ret, _ | .jp _, _ | .call _, _ | .seImm _ _, _ | .sneImm _ _, _ | .seReg _ _, _ | .sneReg _ _, _
  | .ldI _, _ | .jpV0 _, _ | .skp _, _ | .sknp _, _ | .ldDTVx _, _ | .ldSTVx _, _ | .addI _, _ | .ldF _, _ | .ldB _, _
  | .ldMemVx _, _ => false

/-- The closed form of the sprite of R141: the cell in row `r` and column `c` lies `dy = (r - y0) mod 32` rows below and
`dx = (c - x0) mod 64` columns right of the origin; it is lit when `dy < n`, `dx < 8` and bit `7 - dx` of the byte at
`(I + dy) mod 4096` is 1. -/
def State.spriteLit (s : State) (x0 y0 : Byte) (n : Nat) (r : Fin 32) (c : Fin 64) : Bool :=
  let dy := (r.val + 256 - y0.toNat) % 32
  let dx := (c.val + 256 - x0.toNat) % 64
  decide (dy < n) && decide (dx < 8) && (s.mem.read ((s.i.toNat + dy) % 4096)).getLsbD (7 - dx)

/-- `n` ticks in a row (R173). -/
def State.ticks (s : State) : Nat → State
  | 0 => s
  | n + 1 => State.ticks s.tick.2 n

/-- A command that is no `initialize` (R161, R171). -/
def Command.notInitialize : Command → Bool
  | .initCore _ => false
  | _ => true

/-- A command that writes no key latch (R32, R175). -/
def Command.keepsKeys : Command → Bool
  | .initCore _ | .setKeys _ => false
  | _ => true

end Sys2Proof.Machine
end

