-- ==== Sys2Proof/Certificates/Slice0/Obligations.lean ====
section
/-! DEFINITION. The statements about the machine, each from the rules of spec/ its comment names. They are written over the
fields of the state and plain arithmetic; nothing in them rests on the value of a free byte or of the counter `draws`. -/

open Sys2Proof Sys2Proof.Machine

/-! ### Encoding -/

/-- R71, R72, R74: decoding an encoded instruction gives it back, every operand at every value. -/
def Obligations.DecodeOfEncodeIsIdentity : Prop :=
  ∀ i : Instr, decode (encode i) = .known i

/-- R74, R77: a known word is the encoding of the one instruction it decodes to (the ignored `y` of `8xy6` and `8xyE` kept). -/
def Obligations.EncodeOfDecodeIsIdentity : Prop :=
  ∀ (op : Word) (i : Instr), decode op = .known i → encode i = op

/-- R74: 34 rows; an opcode selects an instruction when `op & mask = match`; no opcode is selected by two rows; decoding is
total: an opcode some row selects decodes to an instruction of that row, every other one to `Unknown`. -/
def Obligations.DecodeFollowsTheOpcodeMap : Prop :=
  opcodeMap.length = 34 ∧
  (opcodeMap.Pairwise (fun r r' => ∀ op : Word, ¬ (r.selects op = true ∧ r'.selects op = true))) ∧
  (∀ op : Word, ∀ r ∈ opcodeMap, r.selects op = true → ∃ i, decode op = .known i ∧ i.row = r) ∧
  (∀ op : Word, (∀ r ∈ opcodeMap, r.selects op = false) → decode op = .unknown op)

/-- R76: the unknown opcodes are exactly the six classes of its table (strict decoding, decision D7). -/
def Obligations.UnknownOpcodesAreTheSixClasses : Prop :=
  ∀ op : Word, decode op = .unknown op ↔
    let top := op.toNat / 4096
    let low := op.toNat % 16
    let fn := op.toNat % 256
    (top = 0x0 ∧ op.toNat ≠ 0x0E0 ∧ op.toNat ≠ 0x0EE) ∨
    (top = 0x5 ∧ low ≠ 0) ∨
    (top = 0x8 ∧ (low = 0x8 ∨ low = 0x9 ∨ low = 0xA ∨ low = 0xB ∨ low = 0xC ∨ low = 0xD ∨ low = 0xF)) ∨
    (top = 0x9 ∧ low ≠ 0) ∨
    (top = 0xE ∧ fn ≠ 0x9E ∧ fn ≠ 0xA1) ∨
    (top = 0xF ∧ fn ≠ 0x07 ∧ fn ≠ 0x0A ∧ fn ≠ 0x15 ∧ fn ≠ 0x18 ∧ fn ≠ 0x1E ∧ fn ≠ 0x29 ∧ fn ≠ 0x33 ∧ fn ≠ 0x55 ∧ fn ≠ 0x65)

/-- Words written out from the patterns of R74, one a family, and what they stand for. -/
def Obligations.WordsOfTheTableDecode : Prop :=
  decode 0x2345 = .known (.call 0x345) ∧ decode 0x4A5F = .known (.sneImm 10 0x5F) ∧
  decode 0x8AB7 = .known (.subnReg 10 11) ∧ decode 0xF333 = .known (.ldB 3) ∧
  decode 0xD12F = .known (.drw 1 2 15) ∧ decode 0xF50A = .known (.ldVxK 5) ∧ decode 0x00E1 = .unknown 0x00E1

/-! ### Fetch and step -/

/-- R52: the opcode is the byte at `PC` (bits 15:8) and the byte at `PC + 1` (bits 7:0); R51 (decision D1): both addresses
are taken modulo 4096, so at `PC mod 4096 = 0xFFF` the second byte comes from 0x000. -/
def Obligations.FetchIsBigEndian : Prop :=
  ∀ s : State, s.fetch.toNat = 256 * (s.mem.read (s.pc.toNat % 4096)).toNat + (s.mem.read ((s.pc.toNat + 1) % 4096)).toNat

/-- R170, R161, R171: what a `step` does and reports: a halted machine does nothing and reports `Fatal(FAULT)`; an unknown
opcode changes nothing and is reported with its `PC`; a known one is executed, and the report is `Fatal(code)` if it raised
a fatal error, else `Ok`. The host's command `step` puts
the step's next state in place of the core and answers that report; after it the session runs (log entry 4, DESIGN CHOICE). -/
def Obligations.StepRunsTheDecodedInstruction : Prop :=
  (∀ s : State,
    (s.halt = true → step s = .next s ∧ s.report = .fatal s.fault) ∧
    (s.halt = false →
      (∀ op, decode s.fetch = .unknown op → step s = .next s ∧ s.report = .decodeError op s.pc) ∧
      (∀ i, decode s.fetch = .known i → step s = exec i s ∧
        ∀ t, exec i s = .next t → s.report = if t.halt then .fatal t.fault else .ok))) ∧
  (∀ (h : Session) (t : State), step h.core = .next t → h.perform .step = (.step h.core.report, ⟨t, .running⟩))

/-- R3, R206: every instruction completes in one step, in every state: no meaning faults or refuses. -/
def Obligations.EveryInstructionCompletes : Prop :=
  ∀ (i : Instr) (s : State), ∃ t, exec i s = .next t

/-- R161: on an unknown opcode, whatever commands but `initialize` come once the program runs, `PC`, memory and registers stay,
and the machine still stands on the same opcode, not halted. -/
def Obligations.UnknownOpcodeHoldsUntilInitialize : Prop :=
  ∀ (h : Session) (op : Word) (cs : List Command),
    h.phase = .running → h.core.halt = false → decode h.core.fetch = .unknown op →
    (∀ c ∈ cs, c.notInitialize = true) →
    let u := (h.run cs).core
    u.pc = h.core.pc ∧ u.mem = h.core.mem ∧ u.v = h.core.v ∧ u.i = h.core.i ∧ u.stack = h.core.stack ∧ u.sp = h.core.sp ∧
      u.fb = h.core.fb ∧ u.halt = false ∧ u.fault = h.core.fault ∧ u.report = .decodeError op h.core.pc

/-- R171 (decision D9): a halted machine stays halted with the same `FAULT` under every command but `initialize`, and no
register, memory byte, stack entry or display cell changes; a `load` is refused. -/
def Obligations.HaltedUntilInitialize : Prop :=
  ∀ (h : Session) (cs : List Command), h.core.halt = true → (∀ c ∈ cs, c.notInitialize = true) →
    let u := (h.run cs).core
    u.halt = true ∧ u.fault = h.core.fault ∧ u.pc = h.core.pc ∧ u.mem = h.core.mem ∧ u.v = h.core.v ∧ u.i = h.core.i ∧
      u.stack = h.core.stack ∧ u.sp = h.core.sp ∧ u.fb = h.core.fb ∧ u.report = .fatal h.core.fault ∧
      (∀ image, ((h.run cs).perform (.load image)).1 = .load .refused)

/-! ### Control transfer -/

/-- R91: `1nnn` loads `nnn` into `PC`; nothing but `PC` changes. -/
def Obligations.JumpLoadsItsTarget : Prop :=
  ∀ (s : State) (nnn : Addr), ∃ t, exec (.jp nnn) s = .next t ∧ t.pc.toNat = nnn.toNat ∧ t = { s with pc := t.pc }

/-- R93 (decision D2): `Bnnn` loads `nnn + V[0]`, not reduced modulo 4096; nothing but `PC` changes. -/
def Obligations.JumpWithOffsetKeepsTheWholeSum : Prop :=
  ∀ (s : State) (nnn : Addr),
    ∃ t, exec (.jpV0 nnn) s = .next t ∧ t.pc.toNat = nnn.toNat + (s.v[(0 : RegIx)]).toNat ∧ t = { s with pc := t.pc }

/-- R92 (decisions D4, D5): with `SP < 16`, `2nnn` stores its own address in `STACK[SP]`, counts `SP` up and jumps; no other
entry and nothing else changes. -/
def Obligations.CallPushesItsOwnAddress : Prop :=
  ∀ (s : State) (nnn : Addr), s.sp.val < 16 →
    ∃ t, exec (.call nnn) s = .next t ∧ t.sp.val = s.sp.val + 1 ∧ t.pc.toNat = nnn.toNat ∧
      (∀ k : Fin 16, t.stack[k] = if k.val = s.sp.val then s.pc else s.stack[k]) ∧
      t = { s with stack := t.stack, sp := t.sp, pc := t.pc }

/-- R90 (decision D4): with `SP > 0`, `00EE` counts `SP` down and loads `PC` with the popped address plus 2; the entries keep
their values and nothing else changes. -/
def Obligations.ReturnPopsPastTheCall : Prop :=
  ∀ (s : State) (k : Fin 16), s.sp.val = k.val + 1 →
    ∃ t, exec .ret s = .next t ∧ t.sp.val = k.val ∧ t.pc = s.stack[k] + 2 ∧ t = { s with sp := t.sp, pc := t.pc }

/-- R90, R92 and the scenario S8: a call and then a return come back to the instruction after the call with the stack as
deep as before, every entry below it and everything else unchanged. -/
def Obligations.CallThenReturnComesBack : Prop :=
  ∀ (s : State) (nnn : Addr), s.sp.val < 16 →
    ∃ t u, exec (.call nnn) s = .next t ∧ exec .ret t = .next u ∧ u.pc = s.pc + 2 ∧ u.sp = s.sp ∧
      (∀ k : Fin 16, k.val < s.sp.val → u.stack[k] = s.stack[k]) ∧ u = { s with stack := u.stack, pc := u.pc }

/-- R162, R163, R165, R166 (decisions D5, D9, D10): a call on a full stack, a return on an empty one and a key skip with
`V[x] > 15` latch `HALT` and `FAULT` 2, 3, 5 and change nothing else. -/
def Obligations.FatalErrorsLatchHaltAndFaultOnly : Prop :=
  (∀ (s : State) (nnn : Addr), s.sp.val = 16 → exec (.call nnn) s = .next { s with halt := true, fault := 2 }) ∧
  (∀ s : State, s.sp.val = 0 → exec .ret s = .next { s with halt := true, fault := 3 }) ∧
  (∀ (s : State) (x : RegIx), 15 < (s.v[x]).toNat →
    exec (.skp x) s = .next { s with halt := true, fault := 5 } ∧ exec (.sknp x) s = .next { s with halt := true, fault := 5 })

/-- R160, R166, R167: the only instructions that can halt the machine, on which operands, with which code; a halting
instruction changes nothing but `HALT` and `FAULT`. -/
def Obligations.OnlyTheFatalErrorsHalt : Prop :=
  ∀ (i : Instr) (s t : State), s.halt = false → exec i s = .next t → t.halt = true →
    t = { s with halt := true, fault := t.fault } ∧
    (((∃ nnn, i = .call nnn) ∧ s.sp.val = 16 ∧ t.fault = 2) ∨ (i = .ret ∧ s.sp.val = 0 ∧ t.fault = 3) ∨
      (∃ x, (i = .skp x ∨ i = .sknp x) ∧ 15 < (s.v[x]).toNat ∧ t.fault = 5))

/-! ### Skips -/

/-- R100, R101: compare with an immediate; `PC` advances by 4 or by 2 modulo 65536; only `PC` changes. -/
def Obligations.ImmediateSkips : Prop :=
  ∀ (s : State) (x : RegIx) (nn : Byte),
    exec (.seImm x nn) s = .next { s with pc := if s.v[x] = nn then s.pc + 4 else s.pc + 2 } ∧
    exec (.sneImm x nn) s = .next { s with pc := if s.v[x] ≠ nn then s.pc + 4 else s.pc + 2 }

/-- R102, R103: compare two registers, `x = y` included; only `PC` changes. -/
def Obligations.RegisterSkips : Prop :=
  ∀ (s : State) (x y : RegIx),
    exec (.seReg x y) s = .next { s with pc := if s.v[x] = s.v[y] then s.pc + 4 else s.pc + 2 } ∧
    exec (.sneReg x y) s = .next { s with pc := if s.v[x] ≠ s.v[y] then s.pc + 4 else s.pc + 2 }

/-- R153, R154: with `V[x] = k` in 0..15, `Ex9E` skips if key `k` is pressed and `ExA1` if it is not; only `PC` changes. -/
def Obligations.KeySkips : Prop :=
  ∀ (s : State) (x : RegIx) (k : Fin 16), (s.v[x]).toNat = k.val →
    exec (.skp x) s = .next { s with pc := if s.key[k] = true then s.pc + 4 else s.pc + 2 } ∧
    exec (.sknp x) s = .next { s with pc := if s.key[k] = true then s.pc + 2 else s.pc + 4 }

/-! ### Registers -/

/-- R110, R111: `V[x] <- nn` and `V[x] <- (V[x] + nn) mod 256`, with no flag: no other register, `VF` among them, changes. -/
def Obligations.LoadAndAddImmediate : Prop :=
  ∀ (s : State) (x : RegIx) (nn : Byte),
    (∃ t, exec (.ldImm x nn) s = .next t ∧ t.v[x] = nn ∧ (∀ r : RegIx, r ≠ x → t.v[r] = s.v[r]) ∧
      t = { s with v := t.v, pc := s.pc + 2 }) ∧
    (∃ t, exec (.addImm x nn) s = .next t ∧ (t.v[x]).toNat = ((s.v[x]).toNat + nn.toNat) % 256 ∧
      (∀ r : RegIx, r ≠ x → t.v[r] = s.v[r]) ∧ t = { s with v := t.v, pc := s.pc + 2 })

/-- R112 to R115: copy, or, and, exclusive or into `V[x]`, bit by bit; no other register, `VF` among them, changes. -/
def Obligations.CopyAndLogic : Prop :=
  ∀ (s : State) (x y : RegIx),
    (∃ t, exec (.ldReg x y) s = .next t ∧ t.v[x] = s.v[y] ∧ (∀ r : RegIx, r ≠ x → t.v[r] = s.v[r]) ∧
      t = { s with v := t.v, pc := s.pc + 2 }) ∧
    (∃ t, exec (.orReg x y) s = .next t ∧ (∀ b < 8, (t.v[x]).getLsbD b = ((s.v[x]).getLsbD b || (s.v[y]).getLsbD b)) ∧
      (∀ r : RegIx, r ≠ x → t.v[r] = s.v[r]) ∧ t = { s with v := t.v, pc := s.pc + 2 }) ∧
    (∃ t, exec (.andReg x y) s = .next t ∧ (∀ b < 8, (t.v[x]).getLsbD b = ((s.v[x]).getLsbD b && (s.v[y]).getLsbD b)) ∧
      (∀ r : RegIx, r ≠ x → t.v[r] = s.v[r]) ∧ t = { s with v := t.v, pc := s.pc + 2 }) ∧
    (∃ t, exec (.xorReg x y) s = .next t ∧ (∀ b < 8, (t.v[x]).getLsbD b = ((s.v[x]).getLsbD b ^^ (s.v[y]).getLsbD b)) ∧
      (∀ r : RegIx, r ≠ x → t.v[r] = s.v[r]) ∧ t = { s with v := t.v, pc := s.pc + 2 })

/-- R116: `V[x] <- (a + b) mod 256` and `VF` = carry, from the operands before the instruction. Where `x = 15` the result
stands and the carry is lost (that clause is decision D6 of the spec). -/
def Obligations.AddDeliversCarry : Prop :=
  ∀ (s : State) (x y : RegIx),
    let a := (s.v[x]).toNat
    let b := (s.v[y]).toNat
    ∃ t, exec (.addReg x y) s = .next t ∧ (t.v[x]).toNat = (a + b) % 256 ∧
      (∀ r : RegIx, r ≠ x → t.v[r] = if r = 15 then (if a + b > 255 then 1 else 0) else s.v[r]) ∧
      t = { s with v := t.v, pc := s.pc + 2 }

/-- R117, R119: the two subtractions, `VF` = 1 when there is no borrow, equality included. Where `x = 15` the result stands
(that clause is decision D6 of the spec). -/
def Obligations.SubtractDeliversNotBorrow : Prop :=
  ∀ (s : State) (x y : RegIx),
    let a := (s.v[x]).toNat
    let b := (s.v[y]).toNat
    (∃ t, exec (.subReg x y) s = .next t ∧ (t.v[x]).toNat = (if a ≥ b then a - b else a + 256 - b) ∧
      (∀ r : RegIx, r ≠ x → t.v[r] = if r = 15 then (if a ≥ b then 1 else 0) else s.v[r]) ∧
      t = { s with v := t.v, pc := s.pc + 2 }) ∧
    (∃ t, exec (.subnReg x y) s = .next t ∧ (t.v[x]).toNat = (if b ≥ a then b - a else b + 256 - a) ∧
      (∀ r : RegIx, r ≠ x → t.v[r] = if r = 15 then (if b ≥ a then 1 else 0) else s.v[r]) ∧
      t = { s with v := t.v, pc := s.pc + 2 })

/-- R118, R120: shifts of `V[x]` by one, `VF` = the bit shifted out; the `y` field changes nothing. Where `x = 15` the result
stands (that clause is decision D6 of the spec). -/
def Obligations.ShiftsDeliverTheBitShiftedOut : Prop :=
  ∀ (s : State) (x y : RegIx),
    let a := (s.v[x]).toNat
    (∃ t, exec (.shr x y) s = .next t ∧ (t.v[x]).toNat = a / 2 ∧
      (∀ r : RegIx, r ≠ x → t.v[r] = if r = 15 then (if a % 2 = 1 then 1 else 0) else s.v[r]) ∧
      t = { s with v := t.v, pc := s.pc + 2 }) ∧
    (∃ t, exec (.shl x y) s = .next t ∧ (t.v[x]).toNat = a * 2 % 256 ∧
      (∀ r : RegIx, r ≠ x → t.v[r] = if r = 15 then (if a ≥ 128 then 1 else 0) else s.v[r]) ∧
      t = { s with v := t.v, pc := s.pc + 2 })

/-- R121 (decision D12): `Cxnn` writes `RND & nn`, where `RND` is the free byte of this step, `Config.rnd` at the state's
count of draws (log entry 1), and consumes that draw; its effect is `State.randomAnd` of that byte, which writes `b & nn` for
EVERY byte `b`, so the statement holds whatever the free byte is. Only `V[x]`, `PC` and the count of draws change. -/
def Obligations.RandomByteIsMasked : Prop :=
  ∀ (s : State) (x : RegIx) (nn : Byte),
    (∃ t, exec (.rnd x nn) s = .next t ∧ t.v[x] = Config.rnd s.draws &&& nn ∧ (∀ r : RegIx, r ≠ x → t.v[r] = s.v[r]) ∧
      t = { s with v := t.v, pc := s.pc + 2, draws := s.draws + 1 }) ∧
    (exec (.rnd x nn) s = .next { s.randomAnd (Config.rnd s.draws) x nn with draws := s.draws + 1 }) ∧
    (∀ b : Byte, (s.randomAnd b x nn).v[x] = b &&& nn ∧ (∀ r : RegIx, r ≠ x → (s.randomAnd b x nn).v[r] = s.v[r]) ∧
      s.randomAnd b x nn = { s with v := (s.randomAnd b x nn).v, pc := s.pc + 2 })

/-- R20, R21: whatever the instruction, a register that is neither its destination nor `VF` of a flag writer keeps its value. -/
def Obligations.OnlyNamedRegistersChange : Prop :=
  ∀ (i : Instr) (s t : State) (r : RegIx), exec i s = .next t → mayWriteReg i r = false → t.v[r] = s.v[r]

/-! ### Address register and memory -/

/-- R130, R131: `Annn` and `Fx1E`; the sum is taken modulo 4096 and no flag is written: only `I` and `PC` change. -/
def Obligations.LoadAndAddIndex : Prop :=
  (∀ (s : State) (nnn : Addr), ∃ t, exec (.ldI nnn) s = .next t ∧ t.i.toNat = nnn.toNat ∧
    t = { s with i := t.i, pc := s.pc + 2 }) ∧
  (∀ (s : State) (x : RegIx), ∃ t, exec (.addI x) s = .next t ∧ t.i.toNat = (s.i.toNat + (s.v[x]).toNat) % 4096 ∧
    t = { s with i := t.i, pc := s.pc + 2 })

/-- R132 (decision D25): `I <- 0x050 + 5 * V[x]` with all 8 bits of `V[x]`; only `I` and `PC` change. -/
def Obligations.GlyphAddressIsNotMasked : Prop :=
  ∀ (s : State) (x : RegIx), ∃ t, exec (.ldF x) s = .next t ∧ t.i.toNat = 0x050 + 5 * (s.v[x]).toNat ∧
    t = { s with i := t.i, pc := s.pc + 2 }

/-- R133: the decimal digits of `V[x]` at `(I + 0)`, `(I + 1)`, `(I + 2)` modulo 4096; every other byte, `I` and every register
unchanged. -/
def Obligations.BcdStoresThreeDigits : Prop :=
  ∀ (s : State) (x : RegIx),
    let v := (s.v[x]).toNat
    ∃ t, exec (.ldB x) s = .next t ∧
      (t.mem.read ((s.i.toNat + 0) % 4096)).toNat = v / 100 ∧
      (t.mem.read ((s.i.toNat + 1) % 4096)).toNat = v / 10 % 10 ∧
      (t.mem.read ((s.i.toNat + 2) % 4096)).toNat = v % 10 ∧
      (∀ a : Nat, (∀ k < 3, (s.i.toNat + k) % 4096 ≠ a % 4096) → t.mem.read a = s.mem.read a) ∧
      t = { s with mem := t.mem, pc := s.pc + 2 }

/-- R134 (decision D23): `V[k]` at `(I + k) mod 4096` for `k` up to `x`; every other byte, `I` and every register unchanged. -/
def Obligations.BlockStoreWritesTheRange : Prop :=
  ∀ (s : State) (x : RegIx),
    ∃ t, exec (.ldMemVx x) s = .next t ∧
      (∀ k : RegIx, k ≤ x → t.mem.read ((s.i.toNat + k.val) % 4096) = s.v[k]) ∧
      (∀ a : Nat, (∀ k : RegIx, k ≤ x → (s.i.toNat + k.val) % 4096 ≠ a % 4096) → t.mem.read a = s.mem.read a) ∧
      t = { s with mem := t.mem, pc := s.pc + 2 }

/-- R135 (decision D3): `V[k]` from `(I + k) mod 4096` for `k` up to `x`, then `I <- (I + x + 1) mod 65536`; memory and the
registers above `x` unchanged. -/
def Obligations.BlockLoadReadsTheRange : Prop :=
  ∀ (s : State) (x : RegIx),
    ∃ t, exec (.ldVxMem x) s = .next t ∧
      (∀ k : RegIx, t.v[k] = if k ≤ x then s.mem.read ((s.i.toNat + k.val) % 4096) else s.v[k]) ∧
      t.i.toNat = (s.i.toNat + x.val + 1) % 65536 ∧
      t = { s with v := t.v, i := t.i, pc := s.pc + 2 }

/-- R134, R135: after a block store, a block load of the same range gives the stored registers back, whatever the registers
hold in between; the registers above `x` keep what they hold. -/
def Obligations.StoreThenLoadRestoresRegisters : Prop :=
  ∀ (s t : State) (x : RegIx) (w : Vector Byte 16), exec (.ldMemVx x) s = .next t →
    ∃ u, exec (.ldVxMem x) { t with v := w } = .next u ∧
      (∀ k : RegIx, u.v[k] = if k ≤ x then s.v[k] else w[k]) ∧ u.mem = t.mem

/-- R60: a store is seen by the very next fetch: `Fx55` that stores `V[0]`, `V[1]` over the next instruction makes the opcode
`V[0] ‖ V[1]` the next one fetched. -/
def Obligations.StoredBytesAreFetchedNext : Prop :=
  ∀ (s t : State) (x : RegIx), 1 ≤ x.val → s.i.toNat % 4096 = (s.pc + 2).toNat % 4096 → exec (.ldMemVx x) s = .next t →
    t.fetch.toNat = 256 * (s.v[(0 : RegIx)]).toNat + (s.v[(1 : RegIx)]).toNat

/-- R28: only `Fx33` and `Fx55` write memory. -/
def Obligations.OnlyTwoInstructionsWriteMemory : Prop :=
  ∀ (i : Instr) (s t : State), exec i s = .next t → (∀ x, i ≠ .ldB x) → (∀ x, i ≠ .ldMemVx x) → t.mem = s.mem

/-- R23: only `Annn`, `Fx1E`, `Fx29` and `Fx65` write `I`. -/
def Obligations.OnlyFourInstructionsWriteIndex : Prop :=
  ∀ (i : Instr) (s t : State), exec i s = .next t → (∀ nnn, i ≠ .ldI nnn) → (∀ x, i ≠ .addI x) → (∀ x, i ≠ .ldF x) →
    (∀ x, i ≠ .ldVxMem x) → t.i = s.i

/-- R23: bits 15:12 of `I` never change what a program computes: two states that differ in them alone step to states that
differ in them alone. -/
def Obligations.HighBitsOfIndexAreUnobservable : Prop :=
  ∀ (s t : State) (j : Word), j.toNat % 4096 = s.i.toNat % 4096 → step s = .next t →
    ∃ j' : Word, step { s with i := j } = .next { t with i := j' } ∧ j'.toNat % 4096 = t.i.toNat % 4096

/-! ### Display -/

/-- R140: every cell 0, `DIRTY` 1, `PC` advanced by 2; nothing else changes. -/
def Obligations.ClearDisplayClearsEveryCell : Prop :=
  ∀ s : State, ∃ t, exec .cls s = .next t ∧ (∀ (r : Fin 32) (c : Fin 64), t.fb[r][c] = false) ∧
    t = { s with fb := t.fb, dirty := true, pc := s.pc + 2 }

/-- R141 (decision D14 for the coordinates): each cell is toggled exactly when the sprite of the closed form lights it; `VF`
is 1 exactly when a lit cell was 1; `DIRTY` 1; `V[0..14]`, `I`, memory and the rest unchanged. -/
def Obligations.DrawTogglesLitCells : Prop :=
  ∀ (s : State) (x y : RegIx) (n : Nibble),
    ∃ t, exec (.drw x y n) s = .next t ∧
      (∀ (r : Fin 32) (c : Fin 64), t.fb[r][c] = (s.fb[r][c] ^^ s.spriteLit (s.v[x]) (s.v[y]) n.toNat r c)) ∧
      (t.v[(15 : RegIx)] = 0 ∨ t.v[(15 : RegIx)] = 1) ∧
      (t.v[(15 : RegIx)] = 1 ↔ ∃ (r : Fin 32) (c : Fin 64), s.fb[r][c] = true ∧ s.spriteLit (s.v[x]) (s.v[y]) n.toNat r c = true) ∧
      (∀ r : RegIx, r ≠ 15 → t.v[r] = s.v[r]) ∧
      t = { s with fb := t.fb, v := t.v, dirty := true, pc := s.pc + 2 }

/-- R141 (g), first sentence: the same draw again, with the coordinate registers holding what they held, restores every cell,
whatever the other registers hold in between (`w`); so it covers `x` or `y` = 15, where the first draw wrote `VF` and the program
put the coordinate back. Its `VF` is 1 exactly when some lit cell was 0 before the first draw: the model's reading, what the
pseudocode of R141 gives (log entry 10, DEDUCED). -/
def Obligations.DrawTwiceRestoresTheDisplay : Prop :=
  ∀ (s t : State) (x y : RegIx) (n : Nibble) (w : Vector Byte 16), exec (.drw x y n) s = .next t → w[x] = s.v[x] → w[y] = s.v[y] →
    ∃ u, exec (.drw x y n) { t with v := w } = .next u ∧ u.fb = s.fb ∧
      (u.v[(15 : RegIx)] = 1 ↔ ∃ (r : Fin 32) (c : Fin 64), s.fb[r][c] = false ∧ s.spriteLit (s.v[x]) (s.v[y]) n.toNat r c = true)

/-- R141 (g), second sentence, "the second execution gives `VF = 1` if the sprite has any 1 bit": it does NOT follow from the
pseudocode of R141 (a sprite drawn over cells that are all 1 clears them first and then sets them without a collision). The
model follows the pseudocode; this statement is expected to fail (log entry 10). -/
def Obligations.SecondDrawAlwaysCollides : Prop :=
  ∀ (s t u : State) (x y : RegIx) (n : Nibble), exec (.drw x y n) s = .next t → t.v[x] = s.v[x] → t.v[y] = s.v[y] →
    exec (.drw x y n) t = .next u → (∃ dy < n.toNat, s.mem.read ((s.i.toNat + dy) % 4096) ≠ 0) → u.v[(15 : RegIx)] = 1

/-- R33, R143, R34: only `00E0` and `Dxyn` write a display cell or `DIRTY`, and no step clears `DIRTY` (R170). -/
def Obligations.OnlyClearAndDrawWriteTheDisplay : Prop :=
  (∀ (i : Instr) (s t : State), exec i s = .next t → i ≠ .cls → (∀ x y n, i ≠ .drw x y n) → t.fb = s.fb ∧ t.dirty = s.dirty) ∧
  (∀ s t : State, step s = .next t → s.dirty = true → t.dirty = true)

/-- R176, R177 (decisions D21, D22): `consumeDirtyFlag` returns `DIRTY` and clears it, a second one returns 0; `getDisplay`
returns `FB[r][c]` as element `64*r + c` and changes nothing. -/
def Obligations.DisplayPorts : Prop :=
  ∀ h : Session,
    (h.perform .consumeDirtyFlag = (.dirty h.core.dirty, ⟨{ h.core with dirty := false }, h.phase⟩)) ∧
    (((h.perform .consumeDirtyFlag).2.perform .consumeDirtyFlag).1 = .dirty false) ∧
    (h.perform .getDisplay = (.display h.core.getDisplay, h)) ∧
    (∀ (r : Fin 32) (c : Fin 64), h.core.getDisplay[(64 * r.val + c.val)]? = some h.core.fb[r][c])

/-! ### Timers and keypad -/

/-- R150 to R152 (decision D13): `V[x] <- DT`, `DT <- V[x]`, `ST <- V[x]`; nothing else changes. -/
def Obligations.TimerMoves : Prop :=
  ∀ (s : State) (x : RegIx),
    (∃ t, exec (.ldVxDT x) s = .next t ∧ t.v[x] = s.dt ∧ (∀ r : RegIx, r ≠ x → t.v[r] = s.v[r]) ∧
      t = { s with v := t.v, pc := s.pc + 2 }) ∧
    exec (.ldDTVx x) s = .next { s with dt := s.v[x], pc := s.pc + 2 } ∧
    exec (.ldSTVx x) s = .next { s with st := s.v[x], pc := s.pc + 2 }

/-- R173: `tick` answers `ST > 0` as it was, decrements each counter that is above 0 by 1, leaves a counter at 0 there, and
reads and writes nothing else. -/
def Obligations.TickDecrementsEachCounter : Prop :=
  ∀ s : State, s.tick.1 = decide (0 < s.st.toNat) ∧ s.tick.2.dt.toNat = (if 0 < s.dt.toNat then s.dt.toNat - 1 else 0) ∧
    s.tick.2.st.toNat = (if 0 < s.st.toNat then s.st.toNat - 1 else 0) ∧ s.tick.2 = { s with dt := s.tick.2.dt, st := s.tick.2.st }

/-- R173's consequence and S6: after `n` ticks each counter is its value less `n`, never below 0, so that exactly the first `v`
ticks after `ST = v` are audible. The host's command `tick` is that tick on the core, with `audible` its answer, and leaves the
phase of the session, which is the model's own (log entry 4, DESIGN CHOICE); `n` commands are `n` ticks. -/
def Obligations.TicksCountDownToZero : Prop :=
  (∀ (s : State) (n : Nat), (s.ticks n).dt.toNat = s.dt.toNat - n ∧ (s.ticks n).st.toNat = s.st.toNat - n ∧
    ((s.ticks n).tick.1 = true ↔ n < s.st.toNat)) ∧
  (∀ h : Session, h.perform .tick = (.audible h.core.tick.1, ⟨h.core.tick.2, h.phase⟩)) ∧
  (∀ (h : Session) (n : Nat), h.run (List.replicate n .tick) = ⟨h.core.ticks n, h.phase⟩)

/-- R31: both timers are decremented only by `tick`, never by `step`: `DT` changes only by `Fx15`, `ST` only by `Fx18`. -/
def Obligations.StepsNeverCountTimers : Prop :=
  ∀ (i : Instr) (s t : State), exec i s = .next t →
    ((∀ x, i ≠ .ldDTVx x) → t.dt = s.dt) ∧ ((∀ x, i ≠ .ldSTVx x) → t.st = s.st)

/-- R174 (decision D19): `SOUND` is 1 exactly when `ST` is not 0; `Fx18` sets it by the value it writes. -/
def Obligations.SoundFollowsTheSoundTimer : Prop :=
  (∀ s : State, s.outputs.sound = true ↔ s.st.toNat ≠ 0) ∧
  (∀ (s t : State) (x : RegIx), exec (.ldSTVx x) s = .next t → (t.outputs.sound = true ↔ (s.v[x]).toNat ≠ 0))

/-- R175, R32: `setKeys` replaces all 16 bits and touches nothing else; under any sequence of commands without a `setKeys` or
an `initialize` the latch keeps its value. -/
def Obligations.KeysChangeBySetKeysOnly : Prop :=
  (∀ (h : Session) (k : Vector Bool 16), h.perform (.setKeys k) = (.none, ⟨{ h.core with key := k }, h.phase⟩)) ∧
  (∀ (h : Session) (cs : List Command), (∀ c ∈ cs, c.keepsKeys = true) → (h.run cs).core.key = h.core.key)

/-- R155: with no key pressed `Fx0A` changes nothing, `PC` included; with some key pressed, the least pressed one `k`
(decision D11) goes to `V[x]` and `PC` advances by 2. -/
def Obligations.WaitForKeyStallsOrDelivers : Prop :=
  (∀ (s : State) (x : RegIx), (∀ k : Fin 16, s.key[k] = false) → exec (.ldVxK x) s = .next s) ∧
  (∀ (s : State) (x : RegIx) (k : Fin 16), s.key[k] = true → (∀ j : Fin 16, j < k → s.key[j] = false) →
    ∃ t, exec (.ldVxK x) s = .next t ∧ (t.v[x]).toNat = k.val ∧ (∀ r : RegIx, r ≠ x → t.v[r] = s.v[r]) ∧
      t = { s with v := t.v, pc := s.pc + 2 })

/-- R155 and the scenario S9: `Fx0A` with no key pressed leaves the whole state unchanged across any number of steps; once
`setKeys` marks one key pressed, the next step sets `V[x]` to it and advances `PC` by 2. -/
def Obligations.WaitForKeyEndsBySetKeys : Prop :=
  ∀ (s : State) (x : RegIx) (n : Nat) (k : Fin 16), s.halt = false → decode s.fetch = .known (.ldVxK x) →
    (∀ j : Fin 16, s.key[j] = false) →
    core.run n s = .next s ∧
    ∃ u, step (s.setKeys (Vector.ofFn (fun j : Fin 16 => j == k))) = .next u ∧ (u.v[x]).toNat = k.val ∧ u.pc = s.pc + 2

/-! ### Whole-machine rules -/

/-- R29: only `2nnn` and `00EE` touch `SP`, and only `2nnn` writes a stack entry. -/
def Obligations.OnlyCallAndReturnTouchTheStack : Prop :=
  ∀ (i : Instr) (s t : State), exec i s = .next t → (∀ nnn, i ≠ .call nnn) → t.stack = s.stack ∧ (i ≠ .ret → t.sp = s.sp)

/-- R25, R94: apart from the four control transfers, `PC` advances by 2, or by 4 for a skip, or stays for a stalled `Fx0A` or a
fatal error of a key skip; each of these only for the instructions named. -/
def Obligations.ProgramCounterAdvances : Prop :=
  ∀ (i : Instr) (s t : State), exec i s = .next t → i ≠ .ret → (∀ nnn, i ≠ .jp nnn) → (∀ nnn, i ≠ .call nnn) →
    (∀ nnn, i ≠ .jpV0 nnn) →
    t.pc = s.pc + 2 ∨
    (t.pc = s.pc + 4 ∧ ((∃ x nn, i = .seImm x nn ∨ i = .sneImm x nn) ∨ (∃ x y, i = .seReg x y ∨ i = .sneReg x y) ∨
      ∃ x, i = .skp x ∨ i = .sknp x)) ∨
    (t.pc = s.pc ∧ ∃ x, (i = .ldVxK x ∧ t = s) ∨ ((i = .skp x ∨ i = .sknp x) ∧ t.halt = true))

/-- R213: at the end of a run (a jump to itself, not halted) a step changes nothing. -/
def Obligations.EndedRunStays : Prop :=
  ∀ s : State, s.ended → step s = .next s ∧ s.report = .ok

/-! ### Invariants -/

/-- R35, R36 (decision D9): `HALT` and `FAULT` legal (`FAULT` 0 when not halted, one of 2, 3, 5 when halted); and memory in its
canonical form, which is the model's own choice for MEM (log entry 12, DESIGN CHOICE): every step keeps both. -/
def Obligations.StepKeepsTheInvariant : Prop :=
  ∀ s t : State, s.Inv → step s = .next t → t.Inv

/-- The invariant holds right after reset: `HALT`, `FAULT` as R200 leaves them (decisions D9, D15), and memory in the canonical
form that is the model's own choice (log entry 12, DESIGN CHOICE). -/
def Obligations.ResetMeetsTheInvariant : Prop :=
  State.reset.Inv

/-- R12, R35, R36, R168, R169 (decisions D9, D18): every command of the host keeps the invariant, whatever session it is given
to; every `initialize` that starts a session meets it, with any font and from any state; and so does every session that a
sequence of commands leads to from there. The canonical form of memory in it is the model's own choice (log entry 12,
DESIGN CHOICE), and so is the form of a session (log entry 4, DESIGN CHOICE). -/
def Obligations.EveryCommandKeepsTheInvariant : Prop :=
  (∀ (h : Session) (c : Command), h.core.Inv → (h.perform c).2.core.Inv) ∧
  (∀ (before : State) (font : Config.Font), (Session.boot before font).core.Inv) ∧
  (∀ h : Session, h.Reachable → h.core.Inv)

/-- Two memories in canonical form that read the same at every address are the same list (a property of the model's own
representation of MEM). -/
def Obligations.CanonicalMemoriesAreDeterminedByReads : Prop :=
  ∀ m m' : Memory, m.wf = true → m'.wf = true → (∀ a, m.read a = m'.read a) → m = m'

/-! ### Reset and load -/

/-- R200 (decisions D9, D15, D24; FONT is D16, log entry 2): `initialize`, from any state and with any font, leaves the font at
0x050, zeros elsewhere, `PC` 0x0200 and everything else cleared. The host's command is this operation on the core, and a `load`
is admitted after it (R202, R204; log entry 4). -/
def Obligations.InitializeResetsEverything : Prop :=
  (∀ (h : Session) (font : Config.Font), h.perform (.initCore font) = (.none, ⟨h.core.initCore font, .awaitingLoad⟩)) ∧
  ∀ (s : State) (font : Config.Font),
    let t := s.initCore font
    (∀ k : Fin 80, t.mem.read (0x050 + k.val) = font[k]) ∧
    (∀ a < 4096, (a < 0x050 ∨ 0x0A0 ≤ a) → t.mem.read a = 0) ∧
    (∀ r : RegIx, t.v[r] = 0) ∧ t.i = 0 ∧ t.pc = 0x0200 ∧ t.sp.val = 0 ∧ (∀ k : Fin 16, t.stack[k] = 0) ∧ t.dt = 0 ∧ t.st = 0 ∧
    (∀ k : Fin 16, t.key[k] = false) ∧ (∀ (r : Fin 32) (c : Fin 64), t.fb[r][c] = false) ∧ t.dirty = false ∧
    t.halt = false ∧ t.fault = 0

/-- R204 (decision D17): an image of at most 3584 bytes on a machine that is not halted lands at `0x200 + k`, and nothing else
changes; any other is refused and changes nothing. In a session the command is that operation as long as a load is awaited: the
image is placed and the load answered, and after an accepted load or the first step every load is refused. The commands that are
neither leave a session awaiting its load (log entry 4). -/
def Obligations.LoadPlacesTheImage : Prop :=
  (∀ (s : State) (image : List Byte), image.length ≤ 3584 → s.halt = false →
    (s.load image).1 = .accepted ∧ (∀ k : Fin image.length, (s.load image).2.mem.read (0x200 + k.val) = image[k]) ∧
    (∀ a < 4096, (a < 0x200 ∨ 0x200 + image.length ≤ a) → (s.load image).2.mem.read a = s.mem.read a) ∧
    (s.load image).2 = { s with mem := (s.load image).2.mem }) ∧
  (∀ (s : State) (image : List Byte), 3584 < image.length ∨ s.halt = true → s.load image = (.refused, s)) ∧
  (∀ (h : Session) (image : List Byte), h.phase = .awaitingLoad → image.length ≤ 3584 → h.core.halt = false →
    h.perform (.load image) = (.load .accepted, ⟨(h.core.load image).2, .running⟩)) ∧
  (∀ (h : Session) (image : List Byte), h.phase = .awaitingLoad → 3584 < image.length ∨ h.core.halt = true →
    h.perform (.load image) = (.load .refused, h)) ∧
  (∀ (h : Session) (image : List Byte), h.phase = .running → h.perform (.load image) = (.load .refused, h)) ∧
  (∀ h : Session, (h.perform .step).2.phase = .running) ∧
  (∀ (h : Session) (k : Vector Bool 16), (h.perform .tick).2.phase = h.phase ∧ (h.perform (.setKeys k)).2.phase = h.phase ∧
    (h.perform .consumeDirtyFlag).2.phase = h.phase ∧ (h.perform .getDisplay).2.phase = h.phase) ∧
  (∀ (h : Session) (image : List Byte), (h.perform (.load image)).1 = .load .accepted → (h.perform (.load image)).2.phase = .running)
end

