-- ==== Sys2Proof/Laws/State.lean ====
section
/-! SUPPORT. One lemma for each field and each named update: the field after the update, true by rfl. -/

namespace Sys2Proof.Machine

variable (s : State)

/-! ### setReg -/

@[simp] theorem State.setReg_mem (x : RegIx) (b : Byte) : (s.setReg x b).mem = s.mem := rfl
@[simp] theorem State.setReg_v (x : RegIx) (b : Byte) : (s.setReg x b).v = s.v.set x b := rfl
@[simp] theorem State.setReg_i (x : RegIx) (b : Byte) : (s.setReg x b).i = s.i := rfl
@[simp] theorem State.setReg_pc (x : RegIx) (b : Byte) : (s.setReg x b).pc = s.pc := rfl
@[simp] theorem State.setReg_stack (x : RegIx) (b : Byte) : (s.setReg x b).stack = s.stack := rfl
@[simp] theorem State.setReg_sp (x : RegIx) (b : Byte) : (s.setReg x b).sp = s.sp := rfl
@[simp] theorem State.setReg_dt (x : RegIx) (b : Byte) : (s.setReg x b).dt = s.dt := rfl
@[simp] theorem State.setReg_st (x : RegIx) (b : Byte) : (s.setReg x b).st = s.st := rfl
@[simp] theorem State.setReg_key (x : RegIx) (b : Byte) : (s.setReg x b).key = s.key := rfl
@[simp] theorem State.setReg_fb (x : RegIx) (b : Byte) : (s.setReg x b).fb = s.fb := rfl
@[simp] theorem State.setReg_dirty (x : RegIx) (b : Byte) : (s.setReg x b).dirty = s.dirty := rfl
@[simp] theorem State.setReg_halt (x : RegIx) (b : Byte) : (s.setReg x b).halt = s.halt := rfl
@[simp] theorem State.setReg_fault (x : RegIx) (b : Byte) : (s.setReg x b).fault = s.fault := rfl
@[simp] theorem State.setReg_draws (x : RegIx) (b : Byte) : (s.setReg x b).draws = s.draws := rfl

/-! ### setPc -/

@[simp] theorem State.setPc_mem (a : Word) : (s.setPc a).mem = s.mem := rfl
@[simp] theorem State.setPc_v (a : Word) : (s.setPc a).v = s.v := rfl
@[simp] theorem State.setPc_i (a : Word) : (s.setPc a).i = s.i := rfl
@[simp] theorem State.setPc_pc (a : Word) : (s.setPc a).pc = a := rfl
@[simp] theorem State.setPc_stack (a : Word) : (s.setPc a).stack = s.stack := rfl
@[simp] theorem State.setPc_sp (a : Word) : (s.setPc a).sp = s.sp := rfl
@[simp] theorem State.setPc_dt (a : Word) : (s.setPc a).dt = s.dt := rfl
@[simp] theorem State.setPc_st (a : Word) : (s.setPc a).st = s.st := rfl
@[simp] theorem State.setPc_key (a : Word) : (s.setPc a).key = s.key := rfl
@[simp] theorem State.setPc_fb (a : Word) : (s.setPc a).fb = s.fb := rfl
@[simp] theorem State.setPc_dirty (a : Word) : (s.setPc a).dirty = s.dirty := rfl
@[simp] theorem State.setPc_halt (a : Word) : (s.setPc a).halt = s.halt := rfl
@[simp] theorem State.setPc_fault (a : Word) : (s.setPc a).fault = s.fault := rfl
@[simp] theorem State.setPc_draws (a : Word) : (s.setPc a).draws = s.draws := rfl

/-! ### setI -/

@[simp] theorem State.setI_mem (a : Word) : (s.setI a).mem = s.mem := rfl
@[simp] theorem State.setI_v (a : Word) : (s.setI a).v = s.v := rfl
@[simp] theorem State.setI_i (a : Word) : (s.setI a).i = a := rfl
@[simp] theorem State.setI_pc (a : Word) : (s.setI a).pc = s.pc := rfl
@[simp] theorem State.setI_stack (a : Word) : (s.setI a).stack = s.stack := rfl
@[simp] theorem State.setI_sp (a : Word) : (s.setI a).sp = s.sp := rfl
@[simp] theorem State.setI_dt (a : Word) : (s.setI a).dt = s.dt := rfl
@[simp] theorem State.setI_st (a : Word) : (s.setI a).st = s.st := rfl
@[simp] theorem State.setI_key (a : Word) : (s.setI a).key = s.key := rfl
@[simp] theorem State.setI_fb (a : Word) : (s.setI a).fb = s.fb := rfl
@[simp] theorem State.setI_dirty (a : Word) : (s.setI a).dirty = s.dirty := rfl
@[simp] theorem State.setI_halt (a : Word) : (s.setI a).halt = s.halt := rfl
@[simp] theorem State.setI_fault (a : Word) : (s.setI a).fault = s.fault := rfl
@[simp] theorem State.setI_draws (a : Word) : (s.setI a).draws = s.draws := rfl

/-! ### memWrite -/

@[simp] theorem State.memWrite_mem (a : Nat) (b : Byte) : (s.memWrite a b).mem = s.mem.write a b := rfl
@[simp] theorem State.memWrite_v (a : Nat) (b : Byte) : (s.memWrite a b).v = s.v := rfl
@[simp] theorem State.memWrite_i (a : Nat) (b : Byte) : (s.memWrite a b).i = s.i := rfl
@[simp] theorem State.memWrite_pc (a : Nat) (b : Byte) : (s.memWrite a b).pc = s.pc := rfl
@[simp] theorem State.memWrite_stack (a : Nat) (b : Byte) : (s.memWrite a b).stack = s.stack := rfl
@[simp] theorem State.memWrite_sp (a : Nat) (b : Byte) : (s.memWrite a b).sp = s.sp := rfl
@[simp] theorem State.memWrite_dt (a : Nat) (b : Byte) : (s.memWrite a b).dt = s.dt := rfl
@[simp] theorem State.memWrite_st (a : Nat) (b : Byte) : (s.memWrite a b).st = s.st := rfl
@[simp] theorem State.memWrite_key (a : Nat) (b : Byte) : (s.memWrite a b).key = s.key := rfl
@[simp] theorem State.memWrite_fb (a : Nat) (b : Byte) : (s.memWrite a b).fb = s.fb := rfl
@[simp] theorem State.memWrite_dirty (a : Nat) (b : Byte) : (s.memWrite a b).dirty = s.dirty := rfl
@[simp] theorem State.memWrite_halt (a : Nat) (b : Byte) : (s.memWrite a b).halt = s.halt := rfl
@[simp] theorem State.memWrite_fault (a : Nat) (b : Byte) : (s.memWrite a b).fault = s.fault := rfl
@[simp] theorem State.memWrite_draws (a : Nat) (b : Byte) : (s.memWrite a b).draws = s.draws := rfl

/-! ### advance -/

@[simp] theorem State.advance_mem : (s.advance).mem = s.mem := rfl
@[simp] theorem State.advance_v : (s.advance).v = s.v := rfl
@[simp] theorem State.advance_i : (s.advance).i = s.i := rfl
@[simp] theorem State.advance_pc : (s.advance).pc = s.pc + 2 := rfl
@[simp] theorem State.advance_stack : (s.advance).stack = s.stack := rfl
@[simp] theorem State.advance_sp : (s.advance).sp = s.sp := rfl
@[simp] theorem State.advance_dt : (s.advance).dt = s.dt := rfl
@[simp] theorem State.advance_st : (s.advance).st = s.st := rfl
@[simp] theorem State.advance_key : (s.advance).key = s.key := rfl
@[simp] theorem State.advance_fb : (s.advance).fb = s.fb := rfl
@[simp] theorem State.advance_dirty : (s.advance).dirty = s.dirty := rfl
@[simp] theorem State.advance_halt : (s.advance).halt = s.halt := rfl
@[simp] theorem State.advance_fault : (s.advance).fault = s.fault := rfl
@[simp] theorem State.advance_draws : (s.advance).draws = s.draws := rfl

/-! ### skipIf -/

@[simp] theorem State.skipIf_mem (c : Bool) : (s.skipIf c).mem = s.mem := rfl
@[simp] theorem State.skipIf_v (c : Bool) : (s.skipIf c).v = s.v := rfl
@[simp] theorem State.skipIf_i (c : Bool) : (s.skipIf c).i = s.i := rfl
@[simp] theorem State.skipIf_pc (c : Bool) : (s.skipIf c).pc = if c then s.pc + 4 else s.pc + 2 := rfl
@[simp] theorem State.skipIf_stack (c : Bool) : (s.skipIf c).stack = s.stack := rfl
@[simp] theorem State.skipIf_sp (c : Bool) : (s.skipIf c).sp = s.sp := rfl
@[simp] theorem State.skipIf_dt (c : Bool) : (s.skipIf c).dt = s.dt := rfl
@[simp] theorem State.skipIf_st (c : Bool) : (s.skipIf c).st = s.st := rfl
@[simp] theorem State.skipIf_key (c : Bool) : (s.skipIf c).key = s.key := rfl
@[simp] theorem State.skipIf_fb (c : Bool) : (s.skipIf c).fb = s.fb := rfl
@[simp] theorem State.skipIf_dirty (c : Bool) : (s.skipIf c).dirty = s.dirty := rfl
@[simp] theorem State.skipIf_halt (c : Bool) : (s.skipIf c).halt = s.halt := rfl
@[simp] theorem State.skipIf_fault (c : Bool) : (s.skipIf c).fault = s.fault := rfl
@[simp] theorem State.skipIf_draws (c : Bool) : (s.skipIf c).draws = s.draws := rfl

/-! ### raiseFatal -/

@[simp] theorem State.raiseFatal_mem (code : FaultCode) : (s.raiseFatal code).mem = s.mem := rfl
@[simp] theorem State.raiseFatal_v (code : FaultCode) : (s.raiseFatal code).v = s.v := rfl
@[simp] theorem State.raiseFatal_i (code : FaultCode) : (s.raiseFatal code).i = s.i := rfl
@[simp] theorem State.raiseFatal_pc (code : FaultCode) : (s.raiseFatal code).pc = s.pc := rfl
@[simp] theorem State.raiseFatal_stack (code : FaultCode) : (s.raiseFatal code).stack = s.stack := rfl
@[simp] theorem State.raiseFatal_sp (code : FaultCode) : (s.raiseFatal code).sp = s.sp := rfl
@[simp] theorem State.raiseFatal_dt (code : FaultCode) : (s.raiseFatal code).dt = s.dt := rfl
@[simp] theorem State.raiseFatal_st (code : FaultCode) : (s.raiseFatal code).st = s.st := rfl
@[simp] theorem State.raiseFatal_key (code : FaultCode) : (s.raiseFatal code).key = s.key := rfl
@[simp] theorem State.raiseFatal_fb (code : FaultCode) : (s.raiseFatal code).fb = s.fb := rfl
@[simp] theorem State.raiseFatal_dirty (code : FaultCode) : (s.raiseFatal code).dirty = s.dirty := rfl
@[simp] theorem State.raiseFatal_halt (code : FaultCode) : (s.raiseFatal code).halt = true := rfl
@[simp] theorem State.raiseFatal_fault (code : FaultCode) : (s.raiseFatal code).fault = code := rfl
@[simp] theorem State.raiseFatal_draws (code : FaultCode) : (s.raiseFatal code).draws = s.draws := rfl

/-! ### setFlag -/

@[simp] theorem State.setFlag_mem (f : Bool) : (s.setFlag f).mem = s.mem := rfl
@[simp] theorem State.setFlag_v (f : Bool) : (s.setFlag f).v = s.v.set 15 (flagByte f) := rfl
@[simp] theorem State.setFlag_i (f : Bool) : (s.setFlag f).i = s.i := rfl
@[simp] theorem State.setFlag_pc (f : Bool) : (s.setFlag f).pc = s.pc := rfl
@[simp] theorem State.setFlag_stack (f : Bool) : (s.setFlag f).stack = s.stack := rfl
@[simp] theorem State.setFlag_sp (f : Bool) : (s.setFlag f).sp = s.sp := rfl
@[simp] theorem State.setFlag_dt (f : Bool) : (s.setFlag f).dt = s.dt := rfl
@[simp] theorem State.setFlag_st (f : Bool) : (s.setFlag f).st = s.st := rfl
@[simp] theorem State.setFlag_key (f : Bool) : (s.setFlag f).key = s.key := rfl
@[simp] theorem State.setFlag_fb (f : Bool) : (s.setFlag f).fb = s.fb := rfl
@[simp] theorem State.setFlag_dirty (f : Bool) : (s.setFlag f).dirty = s.dirty := rfl
@[simp] theorem State.setFlag_halt (f : Bool) : (s.setFlag f).halt = s.halt := rfl
@[simp] theorem State.setFlag_fault (f : Bool) : (s.setFlag f).fault = s.fault := rfl
@[simp] theorem State.setFlag_draws (f : Bool) : (s.setFlag f).draws = s.draws := rfl

/-! ### setFlagThenReg -/

@[simp] theorem State.setFlagThenReg_mem (f : Bool) (x : RegIx) (b : Byte) : (s.setFlagThenReg f x b).mem = s.mem := rfl
@[simp] theorem State.setFlagThenReg_v (f : Bool) (x : RegIx) (b : Byte) : (s.setFlagThenReg f x b).v = (s.v.set 15 (flagByte f)).set x b := rfl
@[simp] theorem State.setFlagThenReg_i (f : Bool) (x : RegIx) (b : Byte) : (s.setFlagThenReg f x b).i = s.i := rfl
@[simp] theorem State.setFlagThenReg_pc (f : Bool) (x : RegIx) (b : Byte) : (s.setFlagThenReg f x b).pc = s.pc := rfl
@[simp] theorem State.setFlagThenReg_stack (f : Bool) (x : RegIx) (b : Byte) : (s.setFlagThenReg f x b).stack = s.stack := rfl
@[simp] theorem State.setFlagThenReg_sp (f : Bool) (x : RegIx) (b : Byte) : (s.setFlagThenReg f x b).sp = s.sp := rfl
@[simp] theorem State.setFlagThenReg_dt (f : Bool) (x : RegIx) (b : Byte) : (s.setFlagThenReg f x b).dt = s.dt := rfl
@[simp] theorem State.setFlagThenReg_st (f : Bool) (x : RegIx) (b : Byte) : (s.setFlagThenReg f x b).st = s.st := rfl
@[simp] theorem State.setFlagThenReg_key (f : Bool) (x : RegIx) (b : Byte) : (s.setFlagThenReg f x b).key = s.key := rfl
@[simp] theorem State.setFlagThenReg_fb (f : Bool) (x : RegIx) (b : Byte) : (s.setFlagThenReg f x b).fb = s.fb := rfl
@[simp] theorem State.setFlagThenReg_dirty (f : Bool) (x : RegIx) (b : Byte) : (s.setFlagThenReg f x b).dirty = s.dirty := rfl
@[simp] theorem State.setFlagThenReg_halt (f : Bool) (x : RegIx) (b : Byte) : (s.setFlagThenReg f x b).halt = s.halt := rfl
@[simp] theorem State.setFlagThenReg_fault (f : Bool) (x : RegIx) (b : Byte) : (s.setFlagThenReg f x b).fault = s.fault := rfl
@[simp] theorem State.setFlagThenReg_draws (f : Bool) (x : RegIx) (b : Byte) : (s.setFlagThenReg f x b).draws = s.draws := rfl

/-! ### storeBcd -/

@[simp] theorem State.storeBcd_mem (b : Byte) : (s.storeBcd b).mem = ((s.mem.write (s.ea 0) (bcdHundreds b)).write (s.ea 1) (bcdTens b)).write (s.ea 2) (bcdOnes b) := rfl
@[simp] theorem State.storeBcd_v (b : Byte) : (s.storeBcd b).v = s.v := rfl
@[simp] theorem State.storeBcd_i (b : Byte) : (s.storeBcd b).i = s.i := rfl
@[simp] theorem State.storeBcd_pc (b : Byte) : (s.storeBcd b).pc = s.pc := rfl
@[simp] theorem State.storeBcd_stack (b : Byte) : (s.storeBcd b).stack = s.stack := rfl
@[simp] theorem State.storeBcd_sp (b : Byte) : (s.storeBcd b).sp = s.sp := rfl
@[simp] theorem State.storeBcd_dt (b : Byte) : (s.storeBcd b).dt = s.dt := rfl
@[simp] theorem State.storeBcd_st (b : Byte) : (s.storeBcd b).st = s.st := rfl
@[simp] theorem State.storeBcd_key (b : Byte) : (s.storeBcd b).key = s.key := rfl
@[simp] theorem State.storeBcd_fb (b : Byte) : (s.storeBcd b).fb = s.fb := rfl
@[simp] theorem State.storeBcd_dirty (b : Byte) : (s.storeBcd b).dirty = s.dirty := rfl
@[simp] theorem State.storeBcd_halt (b : Byte) : (s.storeBcd b).halt = s.halt := rfl
@[simp] theorem State.storeBcd_fault (b : Byte) : (s.storeBcd b).fault = s.fault := rfl
@[simp] theorem State.storeBcd_draws (b : Byte) : (s.storeBcd b).draws = s.draws := rfl

/-! ### storeRegs -/

@[simp] theorem State.storeRegs_v (ks : List RegIx) : (s.storeRegs ks).v = s.v := rfl
@[simp] theorem State.storeRegs_i (ks : List RegIx) : (s.storeRegs ks).i = s.i := rfl
@[simp] theorem State.storeRegs_pc (ks : List RegIx) : (s.storeRegs ks).pc = s.pc := rfl
@[simp] theorem State.storeRegs_stack (ks : List RegIx) : (s.storeRegs ks).stack = s.stack := rfl
@[simp] theorem State.storeRegs_sp (ks : List RegIx) : (s.storeRegs ks).sp = s.sp := rfl
@[simp] theorem State.storeRegs_dt (ks : List RegIx) : (s.storeRegs ks).dt = s.dt := rfl
@[simp] theorem State.storeRegs_st (ks : List RegIx) : (s.storeRegs ks).st = s.st := rfl
@[simp] theorem State.storeRegs_key (ks : List RegIx) : (s.storeRegs ks).key = s.key := rfl
@[simp] theorem State.storeRegs_fb (ks : List RegIx) : (s.storeRegs ks).fb = s.fb := rfl
@[simp] theorem State.storeRegs_dirty (ks : List RegIx) : (s.storeRegs ks).dirty = s.dirty := rfl
@[simp] theorem State.storeRegs_halt (ks : List RegIx) : (s.storeRegs ks).halt = s.halt := rfl
@[simp] theorem State.storeRegs_fault (ks : List RegIx) : (s.storeRegs ks).fault = s.fault := rfl
@[simp] theorem State.storeRegs_draws (ks : List RegIx) : (s.storeRegs ks).draws = s.draws := rfl

/-! ### loadRegs -/

@[simp] theorem State.loadRegs_mem (ks : List RegIx) : (s.loadRegs ks).mem = s.mem := rfl
@[simp] theorem State.loadRegs_i (ks : List RegIx) : (s.loadRegs ks).i = s.i := rfl
@[simp] theorem State.loadRegs_pc (ks : List RegIx) : (s.loadRegs ks).pc = s.pc := rfl
@[simp] theorem State.loadRegs_stack (ks : List RegIx) : (s.loadRegs ks).stack = s.stack := rfl
@[simp] theorem State.loadRegs_sp (ks : List RegIx) : (s.loadRegs ks).sp = s.sp := rfl
@[simp] theorem State.loadRegs_dt (ks : List RegIx) : (s.loadRegs ks).dt = s.dt := rfl
@[simp] theorem State.loadRegs_st (ks : List RegIx) : (s.loadRegs ks).st = s.st := rfl
@[simp] theorem State.loadRegs_key (ks : List RegIx) : (s.loadRegs ks).key = s.key := rfl
@[simp] theorem State.loadRegs_fb (ks : List RegIx) : (s.loadRegs ks).fb = s.fb := rfl
@[simp] theorem State.loadRegs_dirty (ks : List RegIx) : (s.loadRegs ks).dirty = s.dirty := rfl
@[simp] theorem State.loadRegs_halt (ks : List RegIx) : (s.loadRegs ks).halt = s.halt := rfl
@[simp] theorem State.loadRegs_fault (ks : List RegIx) : (s.loadRegs ks).fault = s.fault := rfl
@[simp] theorem State.loadRegs_draws (ks : List RegIx) : (s.loadRegs ks).draws = s.draws := rfl

/-! ### randomAnd -/

@[simp] theorem State.randomAnd_mem (r : Byte) (x : RegIx) (nn : Byte) : (s.randomAnd r x nn).mem = s.mem := rfl
@[simp] theorem State.randomAnd_v (r : Byte) (x : RegIx) (nn : Byte) : (s.randomAnd r x nn).v = s.v.set x (r &&& nn) := rfl
@[simp] theorem State.randomAnd_i (r : Byte) (x : RegIx) (nn : Byte) : (s.randomAnd r x nn).i = s.i := rfl
@[simp] theorem State.randomAnd_pc (r : Byte) (x : RegIx) (nn : Byte) : (s.randomAnd r x nn).pc = s.pc + 2 := rfl
@[simp] theorem State.randomAnd_stack (r : Byte) (x : RegIx) (nn : Byte) : (s.randomAnd r x nn).stack = s.stack := rfl
@[simp] theorem State.randomAnd_sp (r : Byte) (x : RegIx) (nn : Byte) : (s.randomAnd r x nn).sp = s.sp := rfl
@[simp] theorem State.randomAnd_dt (r : Byte) (x : RegIx) (nn : Byte) : (s.randomAnd r x nn).dt = s.dt := rfl
@[simp] theorem State.randomAnd_st (r : Byte) (x : RegIx) (nn : Byte) : (s.randomAnd r x nn).st = s.st := rfl
@[simp] theorem State.randomAnd_key (r : Byte) (x : RegIx) (nn : Byte) : (s.randomAnd r x nn).key = s.key := rfl
@[simp] theorem State.randomAnd_fb (r : Byte) (x : RegIx) (nn : Byte) : (s.randomAnd r x nn).fb = s.fb := rfl
@[simp] theorem State.randomAnd_dirty (r : Byte) (x : RegIx) (nn : Byte) : (s.randomAnd r x nn).dirty = s.dirty := rfl
@[simp] theorem State.randomAnd_halt (r : Byte) (x : RegIx) (nn : Byte) : (s.randomAnd r x nn).halt = s.halt := rfl
@[simp] theorem State.randomAnd_fault (r : Byte) (x : RegIx) (nn : Byte) : (s.randomAnd r x nn).fault = s.fault := rfl
@[simp] theorem State.randomAnd_draws (r : Byte) (x : RegIx) (nn : Byte) : (s.randomAnd r x nn).draws = s.draws := rfl

/-! ### Reads -/

theorem State.reg_eq (x : RegIx) : s.reg x = s.v[x] := rfl

theorem State.memRead_eq (a : Nat) : s.memRead a = s.mem.read a := rfl

/-- An entry of the register file after one entry is set. -/
theorem getElem_set_reg (v : Vector Byte 16) (x y : RegIx) (b : Byte) :
    (v.set x b)[y.val] = if x = y then b else v[y.val] := by
  simp [Vector.getElem_set, Fin.ext_iff]

/-- An entry of the register file after `VF` is set. -/
theorem getElem_set_flag (v : Vector Byte 16) (y : RegIx) (b : Byte) :
    (v.set 15 b)[y.val] = if y = 15 then b else v[y.val] := by
  simpa [eq_comm] using getElem_set_reg v 15 y b

/-- A register after a register write: the new value in `x`, the old one elsewhere (R20). -/
theorem State.reg_setReg (x y : RegIx) (b : Byte) : (s.setReg x b).reg y = if x = y then b else s.reg y := by
  simp [State.reg, Vector.getElem_set, Fin.ext_iff]

/-- A register after flag and result: the result in `x`, else the flag in `VF` (R22). -/
theorem State.reg_setFlagThenReg (f : Bool) (x y : RegIx) (b : Byte) :
    (s.setFlagThenReg f x b).reg y = if x = y then b else if y = 15 then flagByte f else s.reg y := by
  rw [State.setFlagThenReg, State.reg_setReg, State.setFlag, State.reg_setReg]
  simp [eq_comm]

/-- An unknown opcode changes nothing (R161). -/
@[simp] theorem State.unknownOpcode_eq : s.unknownOpcode = s := rfl

/-- A step of a halted machine changes nothing (R171). -/
@[simp] theorem State.haltedStep_eq : s.haltedStep = s := rfl

end Sys2Proof.Machine
end

