-- ==== Sys2Proof/Laws/Display.lean ====
section
/-! SUPPORT. What the rasterizer of spec/44_display.md does: one toggle, a list of toggles, and the sprite as such a list. -/

namespace Sys2Proof.Machine

/-- A cell after one toggle (R141). -/
theorem cellAt_toggleCell (d : Display) (r r' : Fin 32) (c c' : Fin 64) :
    cellAt (toggleCell d r c) r' c' = if r = r' ∧ c = c' then !cellAt d r c else cellAt d r' c' := by
  by_cases hr : r = r'
  · subst hr
    by_cases hc : c = c'
    · subst hc; simp [cellAt, toggleCell]
    · have : ¬ c.val = c'.val := fun h => hc (Fin.ext h)
      simp [cellAt, toggleCell, hc, this]
  · have : ¬ r.val = r'.val := fun h => hr (Fin.ext h)
    simp [cellAt, toggleCell, hr, this]

/-- Two displays with equal cells are equal. -/
theorem display_ext {d e : Display} (h : ∀ r c, cellAt d r c = cellAt e r c) : d = e := by
  apply Vector.ext
  intro r hr
  apply Vector.ext
  intro c hc
  exact h ⟨r, hr⟩ ⟨c, hc⟩

/-- Every cell of a cleared display is 0 (R140). -/
@[simp] theorem cellAt_clearDisplay (r : Fin 32) (c : Fin 64) : cellAt clearDisplay r c = false := by
  simp [cellAt, clearDisplay]

/-- The points of a list plotted in order. -/
def plotAll (ps : List (Fin 32 × Fin 64)) (p : Display × Bool) : Display × Bool :=
  ps.foldl (fun p q => plot q.1 q.2 p) p

/-- A cell after plotting different points: toggled exactly if it is one of them (R141 (e)). -/
theorem cellAt_plotAll (ps : List (Fin 32 × Fin 64)) (hp : ps.Nodup) (p : Display × Bool) (r : Fin 32) (c : Fin 64) :
    cellAt (plotAll ps p).1 r c = if (r, c) ∈ ps then !cellAt p.1 r c else cellAt p.1 r c := by
  induction ps generalizing p with
  | nil => simp [plotAll]
  | cons q rest ih =>
    obtain ⟨hq, hrest⟩ := List.nodup_cons.mp hp
    have hstep : plotAll (q :: rest) p = plotAll rest (plot q.1 q.2 p) := rfl
    rw [hstep, ih hrest]
    simp only [plot, cellAt_toggleCell]
    by_cases h : q = (r, c)
    · subst h; simp [hq]
    · have h' : ¬ (q.1 = r ∧ q.2 = c) := fun ⟨h1, h2⟩ => h (Prod.ext h1 h2)
      have h'' : ¬ (r, c) = q := fun e => h e.symm
      simp [h', h'']

/-- The collision after plotting different points: one of them was already 1 (R141). -/
theorem collision_plotAll (ps : List (Fin 32 × Fin 64)) (hp : ps.Nodup) (p : Display × Bool) :
    (plotAll ps p).2 = (p.2 || ps.any (fun q => cellAt p.1 q.1 q.2)) := by
  induction ps generalizing p with
  | nil => simp [plotAll]
  | cons q rest ih =>
    obtain ⟨hq, hrest⟩ := List.nodup_cons.mp hp
    have hstep : plotAll (q :: rest) p = plotAll rest (plot q.1 q.2 p) := rfl
    rw [hstep, ih hrest]
    have hany : rest.any (fun o => cellAt (toggleCell p.1 q.1 q.2) o.1 o.2) = rest.any (fun o => cellAt p.1 o.1 o.2) := by
      rw [Bool.eq_iff_iff, List.any_eq_true, List.any_eq_true]
      have key : ∀ o ∈ rest, cellAt (toggleCell p.1 q.1 q.2) o.1 o.2 = cellAt p.1 o.1 o.2 := by
        intro o ho
        rw [cellAt_toggleCell]
        have : ¬ (q.1 = o.1 ∧ q.2 = o.2) := fun ⟨h1, h2⟩ => hq (by rwa [show q = o from Prod.ext h1 h2])
        simp [this]
      constructor
      · rintro ⟨o, ho, h⟩; exact ⟨o, ho, by rwa [key o ho] at h⟩
      · rintro ⟨o, ho, h⟩; exact ⟨o, ho, by rwa [key o ho]⟩
    simp only [plot, hany, List.any_cons, Bool.or_assoc]

/-- The points one sprite row toggles. -/
def rowPoints (x0 : Byte) (r : Fin 32) (row : Byte) : List (Fin 32 × Fin 64) :=
  ((List.range 8).filter (fun dx => spriteBit row dx)).map (fun dx => (r, spriteCol x0 dx))

/-- The points a sprite toggles, in drawing order. -/
def State.spritePoints (s : State) (x0 y0 : Byte) (n : Nat) : List (Fin 32 × Fin 64) :=
  (List.range n).flatMap (fun dy => rowPoints x0 (spriteRow y0 dy) (s.memRead (s.ea dy)))

/-- A row of the sprite plots its points (R141). -/
theorem drawRow_eq_plotAll (x0 : Byte) (r : Fin 32) (row : Byte) (p : Display × Bool) :
    drawRow x0 r row p = plotAll (rowPoints x0 r row) p := by
  unfold drawRow plotAll rowPoints
  generalize List.range 8 = ds
  induction ds generalizing p with
  | nil => rfl
  | cons dx rest ih =>
    by_cases h : spriteBit row dx = true
    · simp [h, ih]
    · simp [h, ih]

/-- A sprite plots its points (R141). -/
theorem State.drawSprite_eq_plotAll (s : State) (x0 y0 : Byte) (n : Nat) (p : Display × Bool) :
    s.drawSprite x0 y0 n p = plotAll (s.spritePoints x0 y0 n) p := by
  unfold State.drawSprite State.spritePoints
  generalize List.range n = ds
  induction ds generalizing p with
  | nil => rfl
  | cons dy rest ih =>
    rw [List.foldl_cons, ih, List.flatMap_cons, drawRow_eq_plotAll]
    simp [plotAll, List.foldl_append]

/-- A cell is a point of the sprite when one of its 1 bits lands there (R141). -/
theorem State.mem_spritePoints {s : State} {x0 y0 : Byte} {n : Nat} {r : Fin 32} {c : Fin 64} :
    (r, c) ∈ s.spritePoints x0 y0 n ↔
      ∃ dy < n, ∃ dx < 8, spriteBit (s.memRead (s.ea dy)) dx = true ∧ spriteRow y0 dy = r ∧ spriteCol x0 dx = c := by
  simp only [State.spritePoints, rowPoints, List.mem_flatMap, List.mem_range, List.mem_map, List.mem_filter, Prod.mk.injEq]
  constructor
  · rintro ⟨dy, hdy, dx, ⟨hdx, hb⟩, hr, hc⟩; exact ⟨dy, hdy, dx, hdx, hb, hr, hc⟩
  · rintro ⟨dy, hdy, dx, hdx, hb, hr, hc⟩; exact ⟨dy, hdy, dx, ⟨hdx, hb⟩, hr, hc⟩

/-- No two of a sprite's pixels land on the same cell, up to 32 rows (R141 (e)). -/
theorem State.nodup_spritePoints (s : State) (x0 y0 : Byte) {n : Nat} (hn : n ≤ 32) : (s.spritePoints x0 y0 n).Nodup := by
  unfold State.spritePoints
  rw [List.nodup_flatMap]
  constructor
  · intro dy _
    refine List.Nodup.map_on ?_ (List.nodup_range.filter _)
    intro a ha b hb hab
    have ha := List.mem_range.mp (List.mem_filter.mp ha).1
    have hb := List.mem_range.mp (List.mem_filter.mp hb).1
    have := congrArg (fun q => q.2.val) hab
    simp only [spriteCol] at this
    omega
  · refine List.Pairwise.imp_of_mem ?_ List.nodup_range
    intro a b ha hb hab q hqa hqb
    have ha := List.mem_range.mp ha
    have hb := List.mem_range.mp hb
    simp only [rowPoints, List.mem_map] at hqa hqb
    obtain ⟨_, _, rfl⟩ := hqa
    obtain ⟨_, _, h⟩ := hqb
    have := congrArg (fun q => q.1.val) h
    simp only [spriteRow] at this
    omega

end Sys2Proof.Machine
end

