-- ==== Sys2Proof/Laws/Memory.lean ====
section
/-! SUPPORT. The memory laws: a read after a write (spec/20_memory.md R58 (c)), and every write keeps the canonical form. -/

namespace Sys2Proof.Machine

theorem Memory.lookup_erase_self (m : Memory) (a : Nat) : (m.erase a).lookup a = Memory.unlisted a := by
  induction m with
  | nil => rfl
  | cons c rest ih =>
    by_cases h : c.1 = a
    · simpa [Memory.erase, List.filter, h] using ih
    · have hb : (c.1 != a) = true := by simpa using h
      simpa [Memory.erase, List.filter, hb, Memory.lookup, h] using ih

theorem Memory.lookup_erase_ne (m : Memory) {a k : Nat} (hk : k ≠ a) : (m.erase a).lookup k = m.lookup k := by
  induction m with
  | nil => rfl
  | cons c rest ih =>
    by_cases h : c.1 = a
    · have hc : c.1 ≠ k := by omega
      simpa [Memory.erase, List.filter, h, Memory.lookup, Ne.symm hk] using ih
    · have hb : (c.1 != a) = true := by simpa using h
      by_cases hck : c.1 = k
      · subst hck
        simp [Memory.erase, List.filter, hb, Memory.lookup]
      · simpa [Memory.erase, List.filter, hb, Memory.lookup, hck] using ih

theorem Memory.lookup_place_self (m : Memory) (a : Nat) (b : Byte) (h : ∀ c ∈ m, c.1 ≠ a) :
    (Memory.place a b m).lookup a = b := by
  induction m with
  | nil => simp [Memory.place, Memory.lookup]
  | cons c rest ih =>
    have hc := h c (by simp)
    by_cases hlt : a < c.1
    · simp [Memory.place, hlt, Memory.lookup]
    · simpa [Memory.place, hlt, Memory.lookup, hc] using ih (fun d hd => h d (by simp [hd]))

theorem Memory.lookup_place_ne (m : Memory) {a k : Nat} (b : Byte) (hk : k ≠ a) :
    (Memory.place a b m).lookup k = m.lookup k := by
  induction m with
  | nil => simp [Memory.place, Memory.lookup, hk.symm]
  | cons c rest ih =>
    by_cases hlt : a < c.1
    · simp [Memory.place, hlt, Memory.lookup, hk.symm]
    · by_cases hck : c.1 = k
      · subst hck
        simp [Memory.place, hlt, Memory.lookup]
      · simpa [Memory.place, hlt, Memory.lookup, hck] using ih

theorem Memory.erase_ne (m : Memory) (a : Nat) : ∀ c ∈ m.erase a, c.1 ≠ a := by
  intro c hc
  simpa using (List.mem_filter.mp hc).2

/-- A read after a write: the byte written at its own address, the old byte at every other one (R58 (c), R55). -/
theorem Memory.read_write (m : Memory) (a k : Nat) (b : Byte) :
    (m.write a b).read k = if Memory.cellOf k = Memory.cellOf a then b else m.read k := by
  unfold Memory.write Memory.read
  by_cases hk : Memory.cellOf k = Memory.cellOf a
  · by_cases hb : b = Memory.unlisted (Memory.cellOf a)
    · simp [hk, hb, Memory.lookup_erase_self]
    · simp [hk, hb, Memory.lookup_place_self _ _ _ (Memory.erase_ne m _)]
  · by_cases hb : b = Memory.unlisted (Memory.cellOf a)
    · simp [hk, hb, Memory.lookup_erase_ne _ hk]
    · simp [hk, hb, Memory.lookup_place_ne _ _ hk, Memory.lookup_erase_ne _ hk]

/-- Reading depends on the address modulo 4096 only (R51). -/
theorem Memory.read_mod (m : Memory) (a : Nat) : m.read (a % 4096) = m.read a := by
  simp [Memory.read, Memory.cellOf]

/-- The canonical form, as two facts about the entries. -/
theorem Memory.wf_iff (m : Memory) : m.wf = true ↔
    m.Pairwise (fun c d => c.1 < d.1) ∧ ∀ c ∈ m, c.1 < 4096 ∧ c.2 ≠ Memory.unlisted c.1 := by
  simp [Memory.wf]

theorem Memory.mem_place {m : Memory} {a : Nat} {b : Byte} {d : Host.Cell} :
    d ∈ Memory.place a b m ↔ d = (a, b) ∨ d ∈ m := by
  induction m with
  | nil => simp [Memory.place]
  | cons c rest ih =>
    by_cases hlt : a < c.1
    · simp [Memory.place, hlt]
    · simp [Memory.place, hlt, ih]; tauto

theorem Memory.pairwise_place {m : Memory} {a : Nat} {b : Byte} (hm : m.Pairwise (fun c d => c.1 < d.1))
    (ha : ∀ c ∈ m, c.1 ≠ a) : (Memory.place a b m).Pairwise (fun c d => c.1 < d.1) := by
  induction m with
  | nil => simp [Memory.place]
  | cons c rest ih =>
    obtain ⟨hc, hrest⟩ := List.pairwise_cons.mp hm
    have hca := ha c (by simp)
    by_cases hlt : a < c.1
    · simp only [Memory.place, hlt, if_true, List.pairwise_cons]
      exact ⟨by simpa [hlt] using fun x y hxy => lt_trans hlt (hc (x, y) hxy), hc, hrest⟩
    · simp only [Memory.place, hlt, if_false, List.pairwise_cons]
      refine ⟨fun d hd => ?_, ih hrest (fun d hd => ha d (by simp [hd]))⟩
      rcases Memory.mem_place.mp hd with rfl | hd
      · simp only; omega
      · exact hc d hd

/-- A write keeps the canonical form. -/
theorem Memory.wf_write {m : Memory} (hm : m.wf = true) (a : Nat) (b : Byte) : (m.write a b).wf = true := by
  rw [Memory.wf_iff] at hm ⊢
  obtain ⟨hp, hall⟩ := hm
  have hpe : (m.erase (Memory.cellOf a)).Pairwise (fun c d => c.1 < d.1) := hp.filter _
  have hae : ∀ c ∈ m.erase (Memory.cellOf a), c.1 < 4096 ∧ c.2 ≠ Memory.unlisted c.1 :=
    fun c hc => hall c (List.mem_filter.mp hc).1
  unfold Memory.write
  by_cases hb : b = Memory.unlisted (Memory.cellOf a)
  · rw [if_pos hb]
    exact ⟨hpe, hae⟩
  · simp only [hb, if_false]
    refine ⟨Memory.pairwise_place hpe (Memory.erase_ne m _), fun c hc => ?_⟩
    rcases Memory.mem_place.mp hc with rfl | hc
    · exact ⟨by simp [Memory.cellOf]; omega, hb⟩
    · exact hae c hc

/-- Writes in a row keep the canonical form. -/
theorem Memory.wf_foldl_write {α : Type} (ks : List α) (addr : α → Nat) (val : α → Byte) {m : Memory} (hm : m.wf = true) :
    (ks.foldl (fun m k => m.write (addr k) (val k)) m).wf = true := by
  induction ks generalizing m with
  | nil => exact hm
  | cons k rest ih => exact ih (Memory.wf_write hm _ _)

/-- Writes in a row leave every byte alone that none of them reaches. -/
theorem Memory.read_foldl_write_outside {α : Type} (ks : List α) (addr : α → Nat) (val : α → Byte) (m : Memory) (a : Nat)
    (h : ∀ k ∈ ks, Memory.cellOf (addr k) ≠ Memory.cellOf a) :
    (ks.foldl (fun m k => m.write (addr k) (val k)) m).read a = m.read a := by
  induction ks generalizing m with
  | nil => rfl
  | cons k rest ih =>
    rw [List.foldl_cons, ih _ (fun j hj => h j (by simp [hj])), Memory.read_write]
    simp [(h k (by simp)).symm]

/-- Writes in a row to pairwise different cells leave each of the bytes written. -/
theorem Memory.read_foldl_write_inside {α : Type} (ks : List α) (addr : α → Nat) (val : α → Byte) (m : Memory)
    (hp : ks.Pairwise (fun j k => Memory.cellOf (addr j) ≠ Memory.cellOf (addr k))) {k : α} (hk : k ∈ ks) :
    (ks.foldl (fun m k => m.write (addr k) (val k)) m).read (addr k) = val k := by
  induction ks generalizing m with
  | nil => simp at hk
  | cons j rest ih =>
    obtain ⟨hj, hrest⟩ := List.pairwise_cons.mp hp
    rw [List.foldl_cons]
    rcases List.mem_cons.mp hk with rfl | hk
    · rw [Memory.read_foldl_write_outside _ _ _ _ _ (fun i hi => (hj i hi).symm), Memory.read_write]
      simp
    · exact ih _ hrest hk

/-- The bytes of an image keep the canonical form (R204). -/
theorem Memory.wf_foldl_font (font : Config.Font) : (fontMemory font).wf = true :=
  Memory.wf_foldl_write _ _ _ (by decide)

end Sys2Proof.Machine
end

