-- ==== Sys2Proof/Laws/Commands.lean ====
section
/-! SUPPORT. What the commands' operations do: the bytes of an image (spec/70_reset_and_hazards.md R204), one countdown
(spec/60_exceptions.md R173), and the lit cells of a sprite as its points (spec/44_display.md R141). -/

namespace Sys2Proof.Machine

/-- An image leaves every byte outside its range alone (R204). -/
theorem Memory.read_storeFrom_outside (image : List Byte) (m : Memory) (a k : Nat)
    (h : ∀ j < image.length, (a + j) % 4096 ≠ k % 4096) : (m.storeFrom a image).read k = m.read k := by
  induction image generalizing m a with
  | nil => rfl
  | cons b rest ih =>
    have h0 : ¬ Memory.cellOf k = Memory.cellOf a := fun e => h 0 (by simp) e.symm
    rw [Memory.storeFrom, ih, Memory.read_write, if_neg h0]
    intro j hj
    have := h (j + 1) (by simpa using hj)
    rwa [show a + (j + 1) = a + 1 + j by omega] at this

/-- An image of at most 4096 bytes lands byte by byte at ascending addresses (R204). -/
theorem Memory.read_storeFrom_inside (image : List Byte) (m : Memory) (a : Nat) (hlen : image.length ≤ 4096)
    (k : Nat) (hk : k < image.length) : (m.storeFrom a image).read (a + k) = image[k] := by
  induction image generalizing m a k with
  | nil => simp at hk
  | cons b rest ih =>
    have hl : rest.length < 4096 := by simpa using hlen
    cases k with
    | zero =>
      rw [Memory.storeFrom, Memory.read_storeFrom_outside, Memory.read_write]
      · simp
      · intro j hj; omega
    | succ k =>
      have := ih (m.write a b) (a + 1) (by omega) k (by simpa using hk)
      rwa [show a + 1 + k = a + (k + 1) by omega] at this

/-- An image keeps the canonical form. -/
theorem Memory.wf_storeFrom (image : List Byte) {m : Memory} (hm : m.wf = true) (a : Nat) :
    (m.storeFrom a image).wf = true := by
  induction image generalizing m a with
  | nil => exact hm
  | cons b rest ih => exact ih (Memory.wf_write hm a b) (a + 1)

/-- A `load` in a session is accepted once, before the first step, within the size and not halted; else it changes nothing (R204). -/
theorem Session.performLoad_eq (h : Session) (image : List Byte) :
    h.performLoad image =
      if h.phase = .awaitingLoad ∧ image.length ≤ 3584 ∧ h.core.halt = false then
        (.load .accepted, ⟨{ h.core with mem := h.core.mem.storeFrom 0x200 image }, .running⟩)
      else (.load .refused, h) := by
  obtain ⟨core, phase⟩ := h
  cases phase with
  | running => simp [Session.performLoad]
  | awaitingLoad =>
    by_cases hc : image.length ≤ 3584 ∧ core.halt = false
    · simp [Session.performLoad, State.load, hc]
    · simp [Session.performLoad, State.load, hc]

/-- One countdown is the truncated predecessor (R173). -/
theorem countDown_toNat : ∀ t : Byte, (countDown t).toNat = t.toNat - 1 := by
  decide

/-- The lit cells of the closed form are the points the sprite plots (R141). -/
theorem State.spriteLit_iff (s : State) (x0 y0 : Byte) {n : Nat} (hn : n ≤ 32) (r : Fin 32) (c : Fin 64) :
    s.spriteLit x0 y0 n r c = true ↔ (r, c) ∈ s.spritePoints x0 y0 n := by
  rw [State.mem_spritePoints]
  have := x0.isLt
  have := y0.isLt
  simp only [State.spriteLit, Bool.and_eq_true, decide_eq_true_eq]
  constructor
  · rintro ⟨⟨h1, h2⟩, h3⟩
    refine ⟨_, h1, _, h2, h3, ?_, ?_⟩
    · apply Fin.ext
      simp only [spriteRow]
      omega
    · apply Fin.ext
      simp only [spriteCol]
      omega
  · rintro ⟨dy, h1, dx, h2, h3, h4, h5⟩
    have e1 : (r.val + 256 - y0.toNat) % 32 = dy := by
      rw [← h4]
      simp only [spriteRow]
      omega
    have e2 : (c.val + 256 - x0.toNat) % 64 = dx := by
      rw [← h5]
      simp only [spriteCol]
      omega
    rw [e1, e2]
    exact ⟨⟨h1, h2⟩, h3⟩

end Sys2Proof.Machine
end

