-- ==== Sys2Proof/Laws/Encoding.lean ====
section
/-! SUPPORT. The fields of an encoded word as numbers (spec/30_encoding.md R71, R72), and the masks of the opcode map as fields. -/

namespace Sys2Proof

/-! ### Fields as numbers -/

theorem fieldTop_toNat (op : Word) : (fieldTop op).toNat = op.toNat / 4096 := by
  have := op.isLt
  simp [fieldTop, Nat.shiftRight_eq_div_pow]
  omega

theorem fieldX_val (op : Word) : (fieldX op).val = op.toNat / 256 % 16 := by
  simp [fieldX, Nat.shiftRight_eq_div_pow]

theorem fieldY_val (op : Word) : (fieldY op).val = op.toNat / 16 % 16 := by
  simp [fieldY, Nat.shiftRight_eq_div_pow]

theorem fieldN_toNat (op : Word) : (fieldN op).toNat = op.toNat % 16 := by
  simp [fieldN]

theorem fieldNN_toNat (op : Word) : (fieldNN op).toNat = op.toNat % 256 := by
  simp [fieldNN]

theorem fieldNNN_toNat (op : Word) : (fieldNNN op).toNat = op.toNat % 4096 := by
  simp [fieldNNN]

/-- A concatenation as a number: the left part above the right part. -/
theorem append_toNat {m n : Nat} (a : BitVec m) (b : BitVec n) : (a ++ b).toNat = a.toNat * 2 ^ n + b.toNat := by
  rw [BitVec.toNat_append, ← Nat.shiftLeft_add_eq_or_of_lt b.isLt, Nat.shiftLeft_eq]

@[simp] theorem regBits_toNat (x : RegIx) : (regBits x).toNat = x.val := rfl

theorem formatA_toNat (t : BitVec 4) (a : Addr) : (formatA t a).toNat = t.toNat * 4096 + a.toNat :=
  append_toNat t a

theorem formatXI_toNat (t : BitVec 4) (x : RegIx) (nn : Byte) :
    (formatXI t x nn).toNat = t.toNat * 4096 + x.val * 256 + nn.toNat := by
  refine (append_toNat (t ++ regBits x) nn).trans ?_
  have h := append_toNat t (regBits x)
  have hx := regBits_toNat x
  omega

theorem formatXYN_toNat (t : BitVec 4) (x y : RegIx) (n : Nibble) :
    (formatXYN t x y n).toNat = t.toNat * 4096 + x.val * 256 + y.val * 16 + n.toNat := by
  refine (append_toNat (t ++ regBits x) (regBits y ++ n)).trans ?_
  have h := append_toNat t (regBits x)
  have h' := append_toNat (regBits y) n
  have hx := regBits_toNat x
  have hy := regBits_toNat y
  omega

/-! ### Fields of the three formats -/

@[simp] theorem fieldTop_formatA (t : BitVec 4) (a : Addr) : fieldTop (formatA t a) = t := by
  apply BitVec.eq_of_toNat_eq
  rw [fieldTop_toNat, formatA_toNat]
  omega

@[simp] theorem fieldNNN_formatA (t : BitVec 4) (a : Addr) : fieldNNN (formatA t a) = a := by
  apply BitVec.eq_of_toNat_eq
  rw [fieldNNN_toNat, formatA_toNat]
  omega

@[simp] theorem fieldTop_formatXI (t : BitVec 4) (x : RegIx) (nn : Byte) : fieldTop (formatXI t x nn) = t := by
  apply BitVec.eq_of_toNat_eq
  rw [fieldTop_toNat, formatXI_toNat]
  omega

@[simp] theorem fieldX_formatXI (t : BitVec 4) (x : RegIx) (nn : Byte) : fieldX (formatXI t x nn) = x := by
  apply Fin.ext
  rw [fieldX_val, formatXI_toNat]
  omega

@[simp] theorem fieldNN_formatXI (t : BitVec 4) (x : RegIx) (nn : Byte) : fieldNN (formatXI t x nn) = nn := by
  apply BitVec.eq_of_toNat_eq
  rw [fieldNN_toNat, formatXI_toNat]
  omega

@[simp] theorem fieldTop_formatXYN (t : BitVec 4) (x y : RegIx) (n : Nibble) : fieldTop (formatXYN t x y n) = t := by
  apply BitVec.eq_of_toNat_eq
  rw [fieldTop_toNat, formatXYN_toNat]
  omega

@[simp] theorem fieldX_formatXYN (t : BitVec 4) (x y : RegIx) (n : Nibble) : fieldX (formatXYN t x y n) = x := by
  apply Fin.ext
  rw [fieldX_val, formatXYN_toNat]
  omega

@[simp] theorem fieldY_formatXYN (t : BitVec 4) (x y : RegIx) (n : Nibble) : fieldY (formatXYN t x y n) = y := by
  apply Fin.ext
  rw [fieldY_val, formatXYN_toNat]
  omega

@[simp] theorem fieldN_formatXYN (t : BitVec 4) (x y : RegIx) (n : Nibble) : fieldN (formatXYN t x y n) = n := by
  apply BitVec.eq_of_toNat_eq
  rw [fieldN_toNat, formatXYN_toNat]
  omega

/-! ### A word is its fields -/

theorem formatA_fields (op : Word) : formatA (fieldTop op) (fieldNNN op) = op := by
  apply BitVec.eq_of_toNat_eq
  rw [formatA_toNat, fieldTop_toNat, fieldNNN_toNat]
  omega

theorem formatXI_fields (op : Word) : formatXI (fieldTop op) (fieldX op) (fieldNN op) = op := by
  apply BitVec.eq_of_toNat_eq
  rw [formatXI_toNat, fieldTop_toNat, fieldX_val, fieldNN_toNat]
  omega

theorem formatXYN_fields (op : Word) : formatXYN (fieldTop op) (fieldX op) (fieldY op) (fieldN op) = op := by
  apply BitVec.eq_of_toNat_eq
  rw [formatXYN_toNat, fieldTop_toNat, fieldX_val, fieldY_val, fieldN_toNat]
  omega

/-- A top nibble that is none of 0x0 to 0xE is 0xF: the last arm of the decoder (R75). -/
theorem topNibble_last : ∀ t : BitVec 4,
    (t = 0x0#4 → False) → (t = 0x1#4 → False) → (t = 0x2#4 → False) → (t = 0x3#4 → False) → (t = 0x4#4 → False) →
    (t = 0x5#4 → False) → (t = 0x6#4 → False) → (t = 0x7#4 → False) → (t = 0x8#4 → False) → (t = 0x9#4 → False) →
    (t = 0xA#4 → False) → (t = 0xB#4 → False) → (t = 0xC#4 → False) → (t = 0xD#4 → False) → (t = 0xE#4 → False) →
    t = 0xF#4 := by
  decide

/-! ### The masks of the opcode map -/

theorem and_ones4 (t : BitVec 4) : t &&& 15#4 = t := BitVec.and_allOnes

theorem and_ones8 (b : BitVec 8) : b &&& 255#8 = b := BitVec.and_allOnes

/-- The mask of format `A` keeps `top` (R74). -/
theorem formatA_and_F000 (t : BitVec 4) (a : Addr) : formatA t a &&& 0xF000 = formatA t 0 := by
  refine (BitVec.and_append (x₁ := t) (y₁ := a) (x₂ := 0xF#4) (y₂ := 0#12)).trans ?_
  simp [formatA, and_ones4]

/-- The mask of format `XI` keeps `top` (R74). -/
theorem formatXI_and_F000 (t : BitVec 4) (x : RegIx) (nn : Byte) : formatXI t x nn &&& 0xF000 = formatXI t 0 0 := by
  refine (BitVec.and_append (x₁ := t ++ regBits x) (y₁ := nn) (x₂ := 0xF#4 ++ 0#4) (y₂ := 0#8)).trans ?_
  rw [BitVec.and_append]
  simp [formatXI, and_ones4, regBits]

/-- The mask of format `XF` keeps `top` and the function byte (R74). -/
theorem formatXI_and_F0FF (t : BitVec 4) (x : RegIx) (nn : Byte) : formatXI t x nn &&& 0xF0FF = formatXI t 0 nn := by
  refine (BitVec.and_append (x₁ := t ++ regBits x) (y₁ := nn) (x₂ := 0xF#4 ++ 0#4) (y₂ := 0xFF#8)).trans ?_
  rw [BitVec.and_append]
  simp [formatXI, and_ones4, and_ones8, regBits]

/-- The mask of format `XY` keeps `top` and the sub-opcode (R74). -/
theorem formatXYN_and_F00F (t : BitVec 4) (x y : RegIx) (n : Nibble) :
    formatXYN t x y n &&& 0xF00F = formatXYN t 0 0 n := by
  refine (BitVec.and_append (x₁ := t ++ regBits x) (y₁ := regBits y ++ n) (x₂ := 0xF#4 ++ 0#4) (y₂ := 0#4 ++ 0xF#4)).trans ?_
  rw [BitVec.and_append, BitVec.and_append]
  simp [formatXYN, and_ones4, regBits]

/-- The mask of format `XYN` keeps `top` (R74). -/
theorem formatXYN_and_F000 (t : BitVec 4) (x y : RegIx) (n : Nibble) :
    formatXYN t x y n &&& 0xF000 = formatXYN t 0 0 0 := by
  refine (BitVec.and_append (x₁ := t ++ regBits x) (y₁ := regBits y ++ n) (x₂ := 0xF#4 ++ 0#4) (y₂ := 0#4 ++ 0#4)).trans ?_
  rw [BitVec.and_append, BitVec.and_append]
  simp [formatXYN, and_ones4, regBits]

/-! ### Well-formedness -/

theorem regFits_all (x : RegIx) : regFits x = true := decide_eq_true x.isLt

/-- No ill-formed instruction can be built (R20, R71). -/
theorem Instr.wellFormed_all (i : Instr) : i.WellFormed = true := by
  cases i <;> simp [Instr.WellFormed, regFits_all] <;> exact BitVec.isLt _

/-! ### Bytes in memory -/

/-- The two bytes of an opcode, first byte high, give it back (R52). -/
@[simp] theorem opcodeOfBytes_bytes (op : Word) : opcodeOfBytes (firstByte op) (secondByte op) = op := by
  apply BitVec.eq_of_toNat_eq
  refine (append_toNat (firstByte op) (secondByte op)).trans ?_
  simp [firstByte, secondByte, Nat.shiftRight_eq_div_pow]
  omega

end Sys2Proof
end

