-- ==== Sys2Proof/Laws/Ops.lean ====
section
/-! SUPPORT. What the shared operations do: skips, `I`-based addresses, register ranges, block stores and loads, keys. -/

namespace Sys2Proof.Machine

/-! ### Addresses and register ranges -/

/-- Two of the addresses `EA(j)`, `EA(k)` with offsets below 4096 are different cells when the offsets differ (R51, R134). -/
theorem State.ea_inj (s : State) {j k : Nat} (hj : j < 4096) (hk : k < 4096) (h : s.ea j = s.ea k) : j = k := by
  unfold State.ea at h
  omega

/-- An effective address is a cell (R51). -/
@[simp] theorem State.cellOf_ea (s : State) (k : Nat) : Memory.cellOf (s.ea k) = s.ea k := by
  simp [Memory.cellOf, State.ea]

/-- The range `0..x` holds exactly the indices up to `x` (R134). -/
@[simp] theorem mem_regsUpTo {x k : RegIx} : k ∈ regsUpTo x ↔ k ≤ x := by
  simp [regsUpTo, List.mem_filter]

/-- The range `0..x` ascends (R134). -/
theorem regsUpTo_ascending (x : RegIx) : (regsUpTo x).Pairwise (· < ·) :=
  (List.pairwise_lt_finRange 16).filter _

/-! ### Block store -/

/-- What `Fx55`'s stores leave outside the range: every other byte (R134). -/
theorem State.read_storeRegs_outside (s : State) (x : RegIx) (a : Nat) (h : ∀ k ≤ x, s.ea k.val ≠ a % 4096) :
    (s.storeRegs (regsUpTo x)).mem.read a = s.mem.read a :=
  Memory.read_foldl_write_outside _ _ _ _ _ (fun k hk => by
    rw [State.cellOf_ea]; exact h k (mem_regsUpTo.mp hk))

/-- What `Fx55`'s stores leave in the range: `V[k]` at `EA(k)` (R134). -/
theorem State.read_storeRegs_inside (s : State) {x k : RegIx} (h : k ≤ x) :
    (s.storeRegs (regsUpTo x)).mem.read (s.ea k.val) = s.reg k := by
  refine Memory.read_foldl_write_inside (regsUpTo x) (fun k => s.ea k.val) (fun k => s.reg k) s.mem ?_ (mem_regsUpTo.mpr h)
  refine (regsUpTo_ascending x).imp (fun {j k} hjk heq => ?_)
  rw [State.cellOf_ea, State.cellOf_ea] at heq
  have := s.ea_inj (by omega) (by omega) heq
  have := Fin.lt_def.mp hjk
  omega

/-- `Fx55`'s stores keep the canonical form. -/
theorem State.wf_storeRegs {s : State} (h : s.mem.wf = true) (ks : List RegIx) : (s.storeRegs ks).mem.wf = true :=
  Memory.wf_foldl_write _ _ _ h

/-! ### BCD store -/

/-- Every byte after the three stores of `Fx33` (R133). -/
theorem State.read_storeBcd (s : State) (b : Byte) (a : Nat) :
    (s.storeBcd b).mem.read a =
      if a % 4096 = s.ea 2 then bcdOnes b
      else if a % 4096 = s.ea 1 then bcdTens b
      else if a % 4096 = s.ea 0 then bcdHundreds b
      else s.mem.read a := by
  simp only [State.storeBcd_mem, Memory.read_write, State.cellOf_ea]
  rfl

/-- The stores of `Fx33` keep the canonical form. -/
theorem State.wf_storeBcd {s : State} (h : s.mem.wf = true) (b : Byte) : (s.storeBcd b).mem.wf = true :=
  Memory.wf_write (Memory.wf_write (Memory.wf_write h _ _) _ _) _ _

/-! ### Block load -/

/-- Register writes in a row, each register from its own source: the source where the register is listed. -/
theorem getElem_foldl_set (ks : List RegIx) (src : RegIx → Byte) (v : Vector Byte 16) (r : RegIx) :
    (ks.foldl (fun v (k : RegIx) => v.set k (src k)) v)[r] = if r ∈ ks then src r else v[r] := by
  induction ks generalizing v with
  | nil => simp
  | cons k rest ih =>
    rw [List.foldl_cons, ih]
    by_cases hr : r ∈ rest
    · simp [hr]
    · by_cases hk : r = k
      · subst hk; simp [hr]
      · have : ¬ k.val = r.val := fun h => hk (Fin.ext h.symm)
        simp [hr, hk, this]

/-- Every register after the loads of `Fx65`: the byte at `EA(r)` up to `x`, the old value above (R135). -/
theorem State.reg_loadRegs (s : State) (x r : RegIx) :
    (s.loadRegs (regsUpTo x)).reg r = if r ≤ x then s.mem.read (s.ea r.val) else s.reg r := by
  have h := getElem_foldl_set (regsUpTo x) (fun k => s.memRead (s.ea k.val)) s.v r
  simpa [State.reg, State.loadRegs, State.memRead] using h

/-! ### Keys -/

/-- A register value names a key exactly when it is at most 15 (R165). -/
theorem keyIndex_eq_none {b : Byte} : keyIndex b = none ↔ 15 < b.toNat := by
  unfold keyIndex
  split <;> simp <;> omega

theorem keyIndex_eq_some {b : Byte} {k : Fin 16} : keyIndex b = some k ↔ b.toNat = k.val := by
  unfold keyIndex
  split
  · simp [Fin.ext_iff]
  · rename_i h
    constructor
    · simp
    · intro hk; omega

/-- No key is delivered exactly when no key is pressed (R155). -/
theorem State.lowestKey_eq_none {s : State} : s.lowestKey = none ↔ ∀ k, s.keyDown k = false := by
  simp [State.lowestKey, List.find?_eq_none]

/-- The key delivered is pressed, and no lower one is (R155, decision D11). -/
theorem State.lowestKey_eq_some {s : State} {k : Fin 16} :
    s.lowestKey = some k ↔ s.keyDown k = true ∧ ∀ j < k, s.keyDown j = false := by
  unfold State.lowestKey
  constructor
  · intro h
    refine ⟨by simpa using List.find?_some h, fun j hj => ?_⟩
    obtain ⟨_, as, bs, hab, hall⟩ := List.find?_eq_some_iff_append.mp h
    have hp := List.pairwise_lt_finRange 16
    have hjm : j ∈ List.finRange 16 := List.mem_finRange j
    rw [hab] at hp hjm
    rcases List.mem_append.mp hjm with hj' | hj'
    · simpa using hall j hj'
    · exfalso
      have hkb := (List.pairwise_cons.mp (List.pairwise_append.mp hp).2.1).1
      rcases List.mem_cons.mp hj' with rfl | hj'
      · exact lt_irrefl _ hj
      · exact lt_asymm hj (hkb j hj')
  · rintro ⟨hk, hlow⟩
    rcases hfind : (List.finRange 16).find? (fun k => s.keyDown k) with _ | j
    · have := List.find?_eq_none.mp hfind k (List.mem_finRange k)
      simp [hk] at this
    · have hj : s.keyDown j = true := by simpa using List.find?_some hfind
      obtain ⟨_, as, bs, hab, hall⟩ := List.find?_eq_some_iff_append.mp hfind
      have hkm : k ∈ List.finRange 16 := List.mem_finRange k
      rw [hab] at hkm
      rcases List.mem_append.mp hkm with hk' | hk'
      · have := hall k hk'; simp [hk] at this
      · rcases List.mem_cons.mp hk' with rfl | hk'
        · rfl
        · have hp := List.pairwise_lt_finRange 16
          rw [hab] at hp
          have := (List.pairwise_cons.mp (List.pairwise_append.mp hp).2.1).1 k hk'
          simp [hlow j this] at hj

end Sys2Proof.Machine
end

