-- ==== Sys2Proof/Laws/Exec.lean ====
section
/-! SUPPORT. What the meanings with more than one outcome can do: if they answer a next state, it is one of these. -/

namespace Sys2Proof.Machine

/-- `00EE` underflows, or pops (R90). -/
theorem execRet_cases {s t : State} (h : execRet s = .next t) :
    (s.sp.val = 0 ∧ t = s.raiseFatal FaultCode.stackUnderflow) ∨
      ∃ k : Fin 16, s.sp.val = k.val + 1 ∧ t = { s with sp := ⟨k.val, by omega⟩, pc := s.stack[k] + 2 } := by
  unfold execRet at h
  split at h <;> rename_i h0 <;> injection h with h
  · exact .inl ⟨h0, h.symm⟩
  · exact .inr ⟨⟨s.sp.val - 1, by omega⟩, by simp only; omega, h.symm⟩

/-- `2nnn` overflows, or pushes (R92). -/
theorem execCall_cases {s t : State} {nnn : Addr} (h : execCall nnn s = .next t) :
    (s.sp.val = 16 ∧ t = s.raiseFatal FaultCode.stackOverflow) ∨
      ∃ hlt : s.sp.val < 16, t = { s with stack := s.stack.set s.sp.val s.pc hlt, sp := ⟨s.sp.val + 1, by omega⟩, pc := zext16 nnn } := by
  unfold execCall at h
  split at h <;> rename_i h0 <;> injection h with h
  · exact .inr ⟨h0, h.symm⟩
  · exact .inl ⟨by omega, h.symm⟩

/-- `Ex9E` raises `InvalidKeyIndex`, or skips on the key (R153). -/
theorem execSkp_cases {s t : State} {x : RegIx} (h : execSkp x s = .next t) :
    (15 < (s.reg x).toNat ∧ t = s.raiseFatal FaultCode.invalidKeyIndex) ∨
      ∃ k : Fin 16, (s.reg x).toNat = k.val ∧ t = s.skipIf (s.keyDown k) := by
  unfold execSkp at h
  split at h <;> rename_i hk <;> injection h with h
  · exact .inl ⟨keyIndex_eq_none.mp hk, h.symm⟩
  · exact .inr ⟨_, keyIndex_eq_some.mp hk, h.symm⟩

/-- `ExA1` raises `InvalidKeyIndex`, or skips on the key (R154). -/
theorem execSknp_cases {s t : State} {x : RegIx} (h : execSknp x s = .next t) :
    (15 < (s.reg x).toNat ∧ t = s.raiseFatal FaultCode.invalidKeyIndex) ∨
      ∃ k : Fin 16, (s.reg x).toNat = k.val ∧ t = s.skipIf (!s.keyDown k) := by
  unfold execSknp at h
  split at h <;> rename_i hk <;> injection h with h
  · exact .inl ⟨keyIndex_eq_none.mp hk, h.symm⟩
  · exact .inr ⟨_, keyIndex_eq_some.mp hk, h.symm⟩

/-- `Fx0A` stalls, or delivers the least pressed key (R155). -/
theorem execLdVxK_cases {s t : State} {x : RegIx} (h : execLdVxK x s = .next t) :
    ((∀ k, s.keyDown k = false) ∧ t = s) ∨
      ∃ k : Fin 16, (s.keyDown k = true ∧ ∀ j < k, s.keyDown j = false) ∧ t = (s.setReg x (keyByte k)).advance := by
  unfold execLdVxK at h
  split at h <;> rename_i hk <;> injection h with h
  · exact .inl ⟨State.lowestKey_eq_none.mp hk, h.symm⟩
  · exact .inr ⟨_, State.lowestKey_eq_some.mp hk, h.symm⟩

end Sys2Proof.Machine
end

