-- ==== Sys2Proof/Laws/PerInstr.lean ====
section
/-! SUPPORT. For every instruction: its encoding is selected by its own row of the opcode map (spec/30_encoding.md R74) and it is
well-formed. One lemma for each constructor. -/

namespace Sys2Proof.Laws.RowSelects

/-- The instruction's row is in the opcode map, selects the instruction's word, and the instruction is well-formed. -/
def Statement (i : Instr) : Prop := i.row ∈ opcodeMap ∧ i.row.selects (encode i) = true ∧ i.WellFormed = true

/-- The row selects the word when the masked word is the row's value. -/
theorem of_masked {i : Instr} (hr : i.row ∈ opcodeMap) (hm : encode i &&& i.row.mask = i.row.value) : Statement i :=
  ⟨hr, by simp [OpcodeRow.selects, hm], i.wellFormed_all⟩

theorem cls : Statement .cls := of_masked (by decide) (by decide)

theorem ret : Statement .ret := of_masked (by decide) (by decide)

theorem jp (nnn : Addr) : Statement (.jp nnn) := of_masked (by simp [Instr.row, opcodeMap]) (formatA_and_F000 _ _)

theorem call (nnn : Addr) : Statement (.call nnn) := of_masked (by simp [Instr.row, opcodeMap]) (formatA_and_F000 _ _)

theorem seImm (x : RegIx) (nn : Byte) : Statement (.seImm x nn) := of_masked (by simp [Instr.row, opcodeMap]) (formatXI_and_F000 _ _ _)

theorem sneImm (x : RegIx) (nn : Byte) : Statement (.sneImm x nn) := of_masked (by simp [Instr.row, opcodeMap]) (formatXI_and_F000 _ _ _)

theorem seReg (x : RegIx) (y : RegIx) : Statement (.seReg x y) := of_masked (by simp [Instr.row, opcodeMap]) (formatXYN_and_F00F _ _ _ _)

theorem ldImm (x : RegIx) (nn : Byte) : Statement (.ldImm x nn) := of_masked (by simp [Instr.row, opcodeMap]) (formatXI_and_F000 _ _ _)

theorem addImm (x : RegIx) (nn : Byte) : Statement (.addImm x nn) := of_masked (by simp [Instr.row, opcodeMap]) (formatXI_and_F000 _ _ _)

theorem ldReg (x : RegIx) (y : RegIx) : Statement (.ldReg x y) := of_masked (by simp [Instr.row, opcodeMap]) (formatXYN_and_F00F _ _ _ _)

theorem orReg (x : RegIx) (y : RegIx) : Statement (.orReg x y) := of_masked (by simp [Instr.row, opcodeMap]) (formatXYN_and_F00F _ _ _ _)

theorem andReg (x : RegIx) (y : RegIx) : Statement (.andReg x y) := of_masked (by simp [Instr.row, opcodeMap]) (formatXYN_and_F00F _ _ _ _)

theorem xorReg (x : RegIx) (y : RegIx) : Statement (.xorReg x y) := of_masked (by simp [Instr.row, opcodeMap]) (formatXYN_and_F00F _ _ _ _)

theorem addReg (x : RegIx) (y : RegIx) : Statement (.addReg x y) := of_masked (by simp [Instr.row, opcodeMap]) (formatXYN_and_F00F _ _ _ _)

theorem subReg (x : RegIx) (y : RegIx) : Statement (.subReg x y) := of_masked (by simp [Instr.row, opcodeMap]) (formatXYN_and_F00F _ _ _ _)

theorem shr (x : RegIx) (y : RegIx) : Statement (.shr x y) := of_masked (by simp [Instr.row, opcodeMap]) (formatXYN_and_F00F _ _ _ _)

theorem subnReg (x : RegIx) (y : RegIx) : Statement (.subnReg x y) := of_masked (by simp [Instr.row, opcodeMap]) (formatXYN_and_F00F _ _ _ _)

theorem shl (x : RegIx) (y : RegIx) : Statement (.shl x y) := of_masked (by simp [Instr.row, opcodeMap]) (formatXYN_and_F00F _ _ _ _)

theorem sneReg (x : RegIx) (y : RegIx) : Statement (.sneReg x y) := of_masked (by simp [Instr.row, opcodeMap]) (formatXYN_and_F00F _ _ _ _)

theorem ldI (nnn : Addr) : Statement (.ldI nnn) := of_masked (by simp [Instr.row, opcodeMap]) (formatA_and_F000 _ _)

theorem jpV0 (nnn : Addr) : Statement (.jpV0 nnn) := of_masked (by simp [Instr.row, opcodeMap]) (formatA_and_F000 _ _)

theorem rnd (x : RegIx) (nn : Byte) : Statement (.rnd x nn) := of_masked (by simp [Instr.row, opcodeMap]) (formatXI_and_F000 _ _ _)

theorem drw (x : RegIx) (y : RegIx) (n : Nibble) : Statement (.drw x y n) := of_masked (by simp [Instr.row, opcodeMap]) (formatXYN_and_F000 _ _ _ _)

theorem skp (x : RegIx) : Statement (.skp x) := of_masked (by simp [Instr.row, opcodeMap]) (formatXI_and_F0FF _ _ _)

theorem sknp (x : RegIx) : Statement (.sknp x) := of_masked (by simp [Instr.row, opcodeMap]) (formatXI_and_F0FF _ _ _)

theorem ldVxDT (x : RegIx) : Statement (.ldVxDT x) := of_masked (by simp [Instr.row, opcodeMap]) (formatXI_and_F0FF _ _ _)

theorem ldVxK (x : RegIx) : Statement (.ldVxK x) := of_masked (by simp [Instr.row, opcodeMap]) (formatXI_and_F0FF _ _ _)

theorem ldDTVx (x : RegIx) : Statement (.ldDTVx x) := of_masked (by simp [Instr.row, opcodeMap]) (formatXI_and_F0FF _ _ _)

theorem ldSTVx (x : RegIx) : Statement (.ldSTVx x) := of_masked (by simp [Instr.row, opcodeMap]) (formatXI_and_F0FF _ _ _)

theorem addI (x : RegIx) : Statement (.addI x) := of_masked (by simp [Instr.row, opcodeMap]) (formatXI_and_F0FF _ _ _)

theorem ldF (x : RegIx) : Statement (.ldF x) := of_masked (by simp [Instr.row, opcodeMap]) (formatXI_and_F0FF _ _ _)

theorem ldB (x : RegIx) : Statement (.ldB x) := of_masked (by simp [Instr.row, opcodeMap]) (formatXI_and_F0FF _ _ _)

theorem ldMemVx (x : RegIx) : Statement (.ldMemVx x) := of_masked (by simp [Instr.row, opcodeMap]) (formatXI_and_F0FF _ _ _)

theorem ldVxMem (x : RegIx) : Statement (.ldVxMem x) := of_masked (by simp [Instr.row, opcodeMap]) (formatXI_and_F0FF _ _ _)

end Sys2Proof.Laws.RowSelects
end

