-- ==== Sys2Proof/Laws/Step.lean ====
section
/-! SUPPORT. What one step can do (spec/60_exceptions.md R170): one lemma for each case, and their inversion. -/

namespace Sys2Proof.Machine

/-- A halted machine's step changes nothing (R171). -/
theorem step_halted {s : State} (h : s.halt = true) : step s = .next s := by
  simp [step, h]

/-- A step on an unknown opcode changes nothing (R161). -/
theorem step_unknown {s : State} {op : Word} (h : s.halt = false) (hd : decode s.fetch = .unknown op) :
    step s = .next s := by
  simp [step, h, hd]

/-- A step on a known opcode runs its instruction (R170). -/
theorem step_known {s : State} {i : Instr} (h : s.halt = false) (hd : decode s.fetch = .known i) :
    step s = exec i s := by
  simp [step, h, hd]

/-- Everything a step can do: nothing on a halted machine or an unknown opcode, else the decoded instruction. -/
theorem step_cases {s t : State} (h : step s = .next t) :
    (s.halt = true ∧ t = s) ∨ (s.halt = false ∧ (∃ op, decode s.fetch = .unknown op) ∧ t = s) ∨
      (s.halt = false ∧ ∃ i, decode s.fetch = .known i ∧ exec i s = .next t) := by
  cases hh : s.halt with
  | true =>
    rw [step_halted hh] at h
    exact .inl ⟨rfl, by injection h with h; exact h.symm⟩
  | false =>
    cases hd : decode s.fetch with
    | unknown op =>
      rw [step_unknown hh hd] at h
      exact .inr (.inl ⟨rfl, ⟨op, rfl⟩, by injection h with h; exact h.symm⟩)
    | known i =>
      rw [step_known hh hd] at h
      exact .inr (.inr ⟨rfl, i, rfl, h⟩)

/-- The state after a `step` command is the next state of `step` (R170). -/
theorem State.stepped_of_step {s t : State} (h : step s = .next t) : s.stepped = t := by
  simp [State.stepped, h]

end Sys2Proof.Machine
end

