-- ==== Sys2Proof/Tests/Slice0.lean ====
section
/-! SUPPORT. Tests: words and results taken from spec/95_test_vectors.md (the vector's id in the comment) or written out from the
encodings of spec/30_encoding.md, each about one step; and one witness for the hypotheses of each statement. -/

namespace Sys2Proof.Tests

open Sys2Proof Sys2Proof.Machine

/-! ### Helpers -/

/-- The next state of an answer (reset, where there is none). -/
def after : Result → State
  | .next s => s
  | .fault _ => State.reset
  | .refused _ => State.reset

/-- One step on the word, stored at `PC`. -/
def run (s : State) (w : Nat) : State := after (step (s.withFetchWord 16 w))

/-- Reset with some registers set. -/
def regs (l : List (RegIx × Byte)) : State := l.foldl (fun s p => s.setReg p.1 p.2) State.reset

/-- Bytes at ascending addresses. -/
def bytes (s : State) (a : Nat) (l : List Byte) : State := { s with mem := s.mem.storeFrom a l }

/-- The key vector with the listed keys pressed. -/
def keys (l : List (Fin 16)) : Vector Bool 16 := Vector.ofFn (fun k => l.contains k)

/-! ### Well-formedness: an ill-formed word of each class of R76 is refused -/

theorem test_illformed_top0 : wordWellFormed 0x0123 = false := by decide
theorem test_illformed_top5 : wordWellFormed 0x5121 = false := by decide
theorem test_illformed_top8 : wordWellFormed 0x8128 = false := by decide
theorem test_illformed_top9 : wordWellFormed 0x912F = false := by decide
theorem test_illformed_topE : wordWellFormed 0xE19F = false := by decide
theorem test_illformed_topF : wordWellFormed 0xF1FF = false := by decide
theorem test_wellformed_word : wordWellFormed 0x8AB6 = true := by decide

/-! ### Decoding: one word for each constructor, written out from the patterns of R74 -/

theorem test_decode_cls : decode 0x00E0 = .known .cls := by decide
theorem test_decode_ret : decode 0x00EE = .known .ret := by decide
theorem test_decode_jp : decode 0x1ABC = .known (.jp 0xABC) := by decide
theorem test_decode_call : decode 0x2345 = .known (.call 0x345) := by decide
theorem test_decode_seImm : decode 0x332A = .known (.seImm 3 0x2A) := by decide
theorem test_decode_sneImm : decode 0x4A5F = .known (.sneImm 10 0x5F) := by decide
theorem test_decode_seReg : decode 0x5120 = .known (.seReg 1 2) := by decide
theorem test_decode_ldImm : decode 0x6A05 = .known (.ldImm 10 0x05) := by decide
theorem test_decode_addImm : decode 0x7220 = .known (.addImm 2 0x20) := by decide
theorem test_decode_ldReg : decode 0x8340 = .known (.ldReg 3 4) := by decide
theorem test_decode_orReg : decode 0x8561 = .known (.orReg 5 6) := by decide
theorem test_decode_andReg : decode 0x8782 = .known (.andReg 7 8) := by decide
theorem test_decode_xorReg : decode 0x89A3 = .known (.xorReg 9 10) := by decide
theorem test_decode_addReg : decode 0x8BC4 = .known (.addReg 11 12) := by decide
theorem test_decode_subReg : decode 0x8DE5 = .known (.subReg 13 14) := by decide
theorem test_decode_shr : decode 0x8AB6 = .known (.shr 10 11) := by decide
theorem test_decode_subnReg : decode 0x8F07 = .known (.subnReg 15 0) := by decide
theorem test_decode_shl : decode 0x812E = .known (.shl 1 2) := by decide
theorem test_decode_sneReg : decode 0x9340 = .known (.sneReg 3 4) := by decide
theorem test_decode_ldI : decode 0xA2F0 = .known (.ldI 0x2F0) := by decide
theorem test_decode_jpV0 : decode 0xB301 = .known (.jpV0 0x301) := by decide
theorem test_decode_rnd : decode 0xC30F = .known (.rnd 3 0x0F) := by decide
theorem test_decode_drw : decode 0xD12F = .known (.drw 1 2 15) := by decide
theorem test_decode_skp : decode 0xE29E = .known (.skp 2) := by decide
theorem test_decode_sknp : decode 0xE3A1 = .known (.sknp 3) := by decide
theorem test_decode_ldVxDT : decode 0xF507 = .known (.ldVxDT 5) := by decide
theorem test_decode_ldVxK : decode 0xF60A = .known (.ldVxK 6) := by decide
theorem test_decode_ldDTVx : decode 0xF715 = .known (.ldDTVx 7) := by decide
theorem test_decode_ldSTVx : decode 0xF818 = .known (.ldSTVx 8) := by decide
theorem test_decode_addI : decode 0xF91E = .known (.addI 9) := by decide
theorem test_decode_ldF : decode 0xFA29 = .known (.ldF 10) := by decide
theorem test_decode_ldB : decode 0xFB33 = .known (.ldB 11) := by decide
theorem test_decode_ldMemVx : decode 0xFC55 = .known (.ldMemVx 12) := by decide
theorem test_decode_ldVxMem : decode 0xFD65 = .known (.ldVxMem 13) := by decide
/-- E4 to E9: unknown words. -/
theorem test_decode_unknown : [0x0000, 0x00E1, 0x00FE, 0x0123, 0x5121, 0x912F, 0x8128, 0x812F, 0x812D, 0xE19F, 0xE1A0, 0xE100,
    0xF100, 0xF1FF, 0xF175, 0xF185, 0xF130].all (fun op => decode op == .unknown op) = true := by decide
theorem test_decodeTableWord : decodeTableWord 16 0x6A05 = some (.ldImm 10 5) ∧ decodeTableWord 16 0x5121 = none := by decide
theorem test_encode_words : encode (.drw 1 2 15) = 0xD12F ∧ encode (.shl 1 2) = 0x812E ∧ encode (.ldB 11) = 0xFB33 := by decide

/-! ### Fetch -/

/-- E10: the second byte wraps to 0x000. -/
theorem test_fetch_wraps : (run { State.reset with pc := 0x0FFF } 0x1234).pc = 0x0234 := by decide
/-- E11: `PC` above 0x0FFF fetches modulo 4096 and keeps its value. -/
theorem test_fetch_high_pc : (after (step (bytes { State.reset with pc := 0x10A0 } 0x0A0 [0x60, 0x07]))).pc = 0x10A2 := by decide
/-- E12: an odd `PC`. -/
theorem test_fetch_odd : (run { State.reset with pc := 0x0201 } 0x612A).v[1] = 0x2A := by decide
/-- E13: an unknown opcode changes nothing and is reported. -/
theorem test_unknown_reported : State.reset.report = .decodeError 0x0000 0x0200 ∧ (after (step State.reset)).pc = 0x0200 := by decide

/-! ### Control transfer -/

/-- F3. -/
theorem test_jp_odd : (run State.reset 0x1001).pc = 0x0001 := by decide
/-- F5. -/
theorem test_call_sixteenth : let t := run { State.reset with sp := 15 } 0x2300
    t.stack[15] = 0x0200 ∧ t.sp.val = 16 ∧ t.pc = 0x0300 := by decide
/-- F6. -/
theorem test_call_overflow : let t := run { State.reset with sp := 16 } 0x2300
    t.halt = true ∧ t.fault = 2 ∧ t.sp.val = 16 ∧ t.pc = 0x0200 := by decide
/-- F9. -/
theorem test_ret_full : let t := run { State.reset with sp := 16, stack := State.reset.stack.set 15 0x0ABC } 0x00EE
    t.sp.val = 15 ∧ t.pc = 0x0ABE := by decide
/-- F8. -/
theorem test_ret_underflow : let t := run State.reset 0x00EE
    t.halt = true ∧ t.fault = 3 ∧ t.pc = 0x0200 := by decide
/-- F11. -/
theorem test_jpV0_high : (run (regs [(0, 0xFF)]) 0xBFFF).pc = 0x10FE := by decide
/-- F12: `V[0]`, never `V[3]`. -/
theorem test_jpV0_register : (run (regs [(3, 0x55)]) 0xB300).pc = 0x0300 := by decide
/-- F13: a halted machine. -/
theorem test_halted_step : let s := { State.reset.withFetchWord 16 0x1ABC with halt := true, fault := 2 }
    (after (step s)).pc = 0x0200 ∧ s.report = .fatal 2 := by decide

/-! ### Skips -/

/-- K1, K2. -/
theorem test_seImm : (run (regs [(3, 0x2A)]) 0x332A).pc = 0x0204 ∧ (run (regs [(3, 0x2A)]) 0x332B).pc = 0x0202 := by decide
/-- K3, K4. -/
theorem test_sneImm : (run (regs [(3, 0x2A)]) 0x432A).pc = 0x0202 ∧ (run (regs [(3, 0x2A)]) 0x432B).pc = 0x0204 := by decide
/-- K5, K6. -/
theorem test_seReg : (run (regs [(1, 7), (2, 7)]) 0x5120).pc = 0x0204 ∧ (run (regs [(1, 7), (2, 8)]) 0x5120).pc = 0x0202 := by decide
/-- K8, K9. -/
theorem test_sneReg : (run (regs [(1, 7), (2, 8)]) 0x9120).pc = 0x0204 ∧ (run (regs [(1, 7), (2, 7)]) 0x9120).pc = 0x0202 := by decide
/-- K13. -/
theorem test_skip_at_top : (run { State.reset with pc := 0x0FFE } 0x3000).pc = 0x1002 := by decide

/-! ### Registers -/

/-- A1. -/
theorem test_ldImm : (run State.reset 0x6A05).v[10] = 0x05 ∧ (run State.reset 0x6A05).pc = 0x0202 := by decide
/-- A4. -/
theorem test_addImm : (run (regs [(2, 0xFF), (15, 0x07)]) 0x7201).v[2] = 0 ∧ (run (regs [(2, 0xFF), (15, 0x07)]) 0x7201).v[15] = 7 := by decide
/-- A6. -/
theorem test_ldReg : (run (regs [(4, 0x99)]) 0x8340).v[3] = 0x99 := by decide
/-- A7. -/
theorem test_orReg : let t := run (regs [(1, 0x0F), (2, 0xF0), (15, 1)]) 0x8121
    t.v[1] = 0xFF ∧ t.v[15] = 1 := by decide
/-- A8. -/
theorem test_andReg : let t := run (regs [(1, 0x3C), (2, 0x0F), (15, 1)]) 0x8122
    t.v[1] = 0x0C ∧ t.v[15] = 1 := by decide
/-- A9. -/
theorem test_xorReg : let t := run (regs [(1, 0xFF), (2, 0x0F), (15, 1)]) 0x8123
    t.v[1] = 0xF0 ∧ t.v[15] = 1 := by decide
/-- A13. -/
theorem test_addReg_carry : let t := run (regs [(1, 0xFF), (2, 0xFF)]) 0x8124
    t.v[1] = 0xFE ∧ t.v[15] = 1 := by decide
/-- A16, A17: `VF` as destination, and as operand. -/
theorem test_addReg_flag_alias : (run (regs [(15, 0xF0), (2, 0x20)]) 0x8F24).v[15] = 0x10 ∧
    (run (regs [(1, 0x10), (15, 1)]) 0x81F4).v[1] = 0x11 ∧ (run (regs [(1, 0x10), (15, 1)]) 0x81F4).v[15] = 0 := by decide
/-- A21, A22. -/
theorem test_subReg : (run (regs [(1, 7), (2, 7)]) 0x8125).v[15] = 1 ∧ (run (regs [(1, 0), (2, 0xFF)]) 0x8125).v[1] = 1 ∧
    (run (regs [(1, 0), (2, 0xFF)]) 0x8125).v[15] = 0 := by decide
/-- A24, A25. -/
theorem test_subReg_flag_alias : (run (regs [(15, 3), (2, 5)]) 0x8F25).v[15] = 0xFE ∧
    (run (regs [(1, 9), (15, 1)]) 0x81F5).v[1] = 8 := by decide
/-- A27: `y` is ignored. -/
theorem test_shr : let t := run (regs [(1, 0x05), (2, 0xAA)]) 0x8126
    t.v[1] = 2 ∧ t.v[15] = 1 ∧ t.v[2] = 0xAA := by decide
/-- A31. -/
theorem test_shr_flag_alias : (run (regs [(15, 7)]) 0x8F06).v[15] = 3 := by decide
/-- A33, A35. -/
theorem test_subnReg : (run (regs [(1, 7), (2, 5)]) 0x8127).v[1] = 0xFE ∧ (run (regs [(1, 7), (2, 5)]) 0x8127).v[15] = 0 ∧
    (run (regs [(1, 0xFF)]) 0x8127).v[1] = 1 := by decide
/-- A37. -/
theorem test_subnReg_flag_alias : (run (regs [(1, 9), (15, 1)]) 0x81F7).v[1] = 0xF8 := by decide
/-- A38. -/
theorem test_shl : let t := run (regs [(1, 0x81)]) 0x812E
    t.v[1] = 2 ∧ t.v[15] = 1 := by decide
/-- A42. -/
theorem test_shl_flag_alias : (run (regs [(15, 0xC1)]) 0x8F0E).v[15] = 0x82 := by decide
/-- A43. -/
theorem test_rnd_byte : (State.reset.randomAnd 0xA7 3 0x0F).v[3] = 0x07 := by decide
/-- A44: the mask 0 leaves 0 whatever the byte; here only the `PC` is evaluated, the byte is free. -/
theorem test_rnd_pc : (after (exec (.rnd 3 0) State.reset)).pc = 0x0202 := by decide

/-! ### Address register and memory -/

/-- M1. -/
theorem test_ldI : (run State.reset 0xA2F0).i = 0x02F0 := by decide
/-- M3. -/
theorem test_addI_wraps : let t := run { regs [(2, 1)] with i := 0x0FFF } 0xF21E
    t.i = 0 ∧ t.v[15] = 0 := by decide
/-- M4. -/
theorem test_addI_high : (run { State.reset with i := 0x100F } 0xF21E).i = 0x000F := by decide
/-- M9. -/
theorem test_ldF : (run (regs [(1, 3)]) 0xF129).i = 0x005F := by decide
/-- M12. -/
theorem test_ldF_unmasked : (run (regs [(1, 0xFF)]) 0xF129).i = 0x054B := by decide
/-- M5. -/
theorem test_ldB : let t := run { regs [(0, 234)] with i := 0x0300 } 0xF033
    t.memRead 0x300 = 2 ∧ t.memRead 0x301 = 3 ∧ t.memRead 0x302 = 4 ∧ t.i = 0x0300 := by decide
/-- M7. -/
theorem test_ldB_wraps : let t := run { regs [(0, 255)] with i := 0x0FFE } 0xF033
    t.memRead 0xFFE = 2 ∧ t.memRead 0xFFF = 5 ∧ t.memRead 0x000 = 5 := by decide
/-- M13. -/
theorem test_ldMemVx : let t := run { regs [(0, 0x11), (1, 0x22), (2, 0x33), (3, 0x44)] with i := 0x0400 } 0xF255
    t.memRead 0x400 = 0x11 ∧ t.memRead 0x402 = 0x33 ∧ t.memRead 0x403 = 0 ∧ t.i = 0x0400 := by decide
/-- M15 (registers 0, 7, 8 and 15). -/
theorem test_ldMemVx_wraps : let t := run { regs [(0, 1), (7, 8), (8, 9), (15, 16)] with i := 0x0FF8 } 0xFF55
    t.memRead 0xFF8 = 1 ∧ t.memRead 0xFFF = 8 ∧ t.memRead 0x000 = 9 ∧ t.memRead 0x007 = 0x10 := by decide
/-- M16. -/
theorem test_ldVxMem : let t := run { bytes State.reset 0x300 [2, 3, 4, 5] with i := 0x0300 } 0xF265
    t.v[0] = 2 ∧ t.v[2] = 4 ∧ t.v[3] = 0 ∧ t.i = 0x0303 := by decide
/-- M17, M18. -/
theorem test_ldVxMem_font_and_top : (run { State.reset with i := 0x0050 } 0xF465).v[1] = 0x90 ∧
    (run { bytes State.reset 0xFFF [0x77] with i := 0x0FFF } 0xFF65).i = 0x100F := by decide
/-- P9, step 4 to 5: the stored bytes are the next opcode. -/
theorem test_self_modifying : let t := run { regs [(0, 0x12), (1, 0x08)] with pc := 0x0206, i := 0x0208 } 0xF155
    t.pc = 0x0208 ∧ t.fetch = 0x1208 := by decide

/-! ### Display -/

/-- D1. -/
theorem test_cls : let t := run { State.reset with fb := toggleCell State.reset.fb 3 4 } 0x00E0
    cellAt t.fb 3 4 = false ∧ t.dirty = true ∧ t.pc = 0x0202 := by decide
/-- D3: columns 60 to 63 and 0 to 3. -/
theorem test_drw_wraps : let t := run { bytes (regs [(0, 60)]) 0x300 [0xFF] with i := 0x0300 } 0xD011
    cellAt t.fb 0 60 = true ∧ cellAt t.fb 0 63 = true ∧ cellAt t.fb 0 0 = true ∧ cellAt t.fb 0 3 = true ∧
    cellAt t.fb 0 4 = false ∧ t.v[15] = 0 ∧ t.dirty = true := by decide
/-- D7: a collision. -/
theorem test_drw_collision : let t := run { bytes State.reset 0x300 [0xC0] with i := 0x0300, fb := toggleCell State.reset.fb 0 1 } 0xD011
    cellAt t.fb 0 0 = true ∧ cellAt t.fb 0 1 = false ∧ t.v[15] = 1 := by decide

/-! ### Timers and keypad -/

/-- T1. -/
theorem test_ldVxDT : (run { State.reset with dt := 0x3C } 0xF507).v[5] = 0x3C := by decide
/-- T2. -/
theorem test_ldDTVx : (run (regs [(5, 0x3C)]) 0xF515).dt = 0x3C := by decide
/-- T3. -/
theorem test_ldSTVx : (run (regs [(5, 2)]) 0xF518).st = 2 ∧ (run (regs [(5, 2)]) 0xF518).sound = true := by decide
/-- T8, T9. -/
theorem test_skp : (run { regs [(2, 10)] with key := keys [10] } 0xE29E).pc = 0x0204 ∧ (run (regs [(2, 10)]) 0xE29E).pc = 0x0202 := by decide
/-- T12. -/
theorem test_skp_invalid : let t := run (regs [(2, 0x10)]) 0xE29E
    t.halt = true ∧ t.fault = 5 ∧ t.pc = 0x0200 := by decide
/-- T10, T11. -/
theorem test_sknp : (run (regs [(2, 10)]) 0xE2A1).pc = 0x0204 ∧ (run { regs [(2, 10)] with key := keys [10] } 0xE2A1).pc = 0x0202 := by decide
/-- T13. -/
theorem test_sknp_invalid : (run (regs [(2, 0xFF)]) 0xE2A1).fault = 5 := by decide
/-- T14. -/
theorem test_ldVxK_stalls : (run State.reset 0xF50A).pc = 0x0200 := by decide
/-- T16: the lowest of 7, 3 and 12. -/
theorem test_ldVxK_lowest : let t := run { State.reset with key := keys [7, 3, 12] } 0xF50A
    t.v[5] = 3 ∧ t.pc = 0x0202 := by decide

/-! ### Commands -/

/-- T4. -/
theorem test_tick : let s := { State.reset with dt := 2, st := 1 }
    s.tick.1 = true ∧ s.tick.2.dt = 1 ∧ s.tick.2.st = 0 ∧ s.tick.2.tick.1 = false ∧ s.tick.2.tick.2.dt = 0 := by decide
/-- T19. -/
theorem test_consumeDirtyFlag : let s := { State.reset with dirty := true }
    s.consumeDirtyFlag.1 = true ∧ s.consumeDirtyFlag.2.dirty = false := by decide
/-- R204: byte `k` at `0x200 + k`. -/
theorem test_load : let p := State.reset.load [0x6A, 0x05, 0x00, 0xE0]
    p.1 = .accepted ∧ p.2.memRead 0x201 = 0x05 ∧ p.2.fetch = 0x6A05 := by decide
/-- R204: a second load is refused. -/
theorem test_load_once : (((Session.boot State.reset Config.defaultFont).perform .step).2.perform (.load [])).1 = .load .refused := by
  rfl

/-! ### Witnesses: a concrete state and operands for the hypotheses of each statement, a boundary value for each clause -/

theorem witness_EncodeOfDecode : decode 0xDFFF = .known (.drw 15 15 15) := by decide

theorem witness_DecodeFollowsTheOpcodeMap : (⟨0xF0FF, 0xF065⟩ : OpcodeRow) ∈ opcodeMap ∧
    (⟨0xF0FF, 0xF065⟩ : OpcodeRow).selects 0xFF65 = true ∧ (∀ r ∈ opcodeMap, r.selects 0xFF66 = false) := by decide

theorem witness_StepRuns_halted : ({ State.reset with halt := true, fault := 5 } : State).halt = true := by decide

theorem witness_StepRuns_unknown : State.reset.halt = false ∧ decode State.reset.fetch = .unknown 0 := by decide

theorem witness_StepRuns_known : ∃ t, (State.reset.withFetchWord 16 0x00EE).halt = false ∧
    decode (State.reset.withFetchWord 16 0x00EE).fetch = .known .ret ∧
    exec .ret (State.reset.withFetchWord 16 0x00EE) = .next t := ⟨_, by decide, by decide, rfl⟩

theorem witness_StepRuns_command : step (⟨State.reset, .awaitingLoad⟩ : Session).core = .next State.reset := rfl

theorem witness_UnknownOpcodeHolds : let h : Session := ⟨State.reset, .running⟩
    let cs : List Command := [.tick, .step, .load [0x12, 0x00], .setKeys (keys [3]), .consumeDirtyFlag, .getDisplay]
    h.phase = .running ∧ h.core.halt = false ∧ decode h.core.fetch = .unknown 0 ∧ (∀ c ∈ cs, c.notInitialize = true) := by
  exact ⟨rfl, rfl, by decide, by simp [Command.notInitialize]⟩

theorem witness_HaltedUntilInitialize : let h : Session := ⟨{ State.reset with halt := true, fault := 2 }, .awaitingLoad⟩
    let cs : List Command := [.step, .load [], .tick]
    h.core.halt = true ∧ (∀ c ∈ cs, c.notInitialize = true) := by
  exact ⟨rfl, by simp [Command.notInitialize]⟩

theorem witness_CallPushes : ({ State.reset with sp := 15 } : State).sp.val < 16 := by decide

theorem witness_ReturnPops : ({ State.reset with sp := 16 } : State).sp.val = (15 : Fin 16).val + 1 := by decide

theorem witness_CallThenReturn : State.reset.sp.val < 16 := by decide

theorem witness_FatalErrors : ({ State.reset with sp := 16 } : State).sp.val = 16 ∧ State.reset.sp.val = 0 ∧
    15 < ((regs [(15, 16)]).v[(15 : RegIx)]).toNat := by decide

theorem witness_OnlyTheFatalErrorsHalt_call : ∃ t, ({ State.reset with sp := 16 } : State).halt = false ∧
    exec (.call 0x300) { State.reset with sp := 16 } = .next t ∧ t.halt = true := ⟨_, rfl, rfl, rfl⟩

theorem witness_OnlyTheFatalErrorsHalt_ret : ∃ t, State.reset.halt = false ∧ exec .ret State.reset = .next t ∧ t.halt = true :=
  ⟨_, rfl, rfl, rfl⟩

theorem witness_OnlyTheFatalErrorsHalt_key : ∃ t, (regs [(2, 16)]).halt = false ∧ exec (.skp 2) (regs [(2, 16)]) = .next t ∧
    t.halt = true := ⟨_, rfl, rfl, rfl⟩

theorem witness_KeySkips : ((regs [(2, 15)]).v[(2 : RegIx)]).toNat = (15 : Fin 16).val := by decide

theorem witness_OnlyNamedRegistersChange : ∃ t, exec (.addReg 1 2) State.reset = .next t ∧ mayWriteReg (.addReg 1 2) 14 = false :=
  ⟨_, rfl, rfl⟩

theorem witness_StoreThenLoad : ∃ t, exec (.ldMemVx 15) { State.reset with i := 0x0FF8 } = .next t := ⟨_, rfl⟩

theorem witness_StoredBytesAreFetchedNext : ∃ t, 1 ≤ (1 : RegIx).val ∧
    (0x1208 : Word).toNat % 4096 = ((0x0206 : Word) + 2).toNat % 4096 ∧
    exec (.ldMemVx 1) { State.reset with pc := 0x0206, i := 0x1208 } = .next t := ⟨_, by decide, by decide, rfl⟩

theorem witness_OnlyTwoInstructionsWriteMemory : ∃ t, exec (.ldVxMem 15) State.reset = .next t ∧
    (∀ x, Instr.ldVxMem 15 ≠ .ldB x) ∧ (∀ x, Instr.ldVxMem 15 ≠ .ldMemVx x) := ⟨_, rfl, by simp, by simp⟩

theorem witness_OnlyFourInstructionsWriteIndex : ∃ t, exec (.ldB 0) State.reset = .next t ∧ (∀ nnn, Instr.ldB 0 ≠ .ldI nnn) ∧
    (∀ x, Instr.ldB 0 ≠ .addI x) ∧ (∀ x, Instr.ldB 0 ≠ .ldF x) ∧ (∀ x, Instr.ldB 0 ≠ .ldVxMem x) :=
  ⟨_, rfl, by simp, by simp, by simp, by simp⟩

theorem witness_HighBitsOfIndex : ∃ t, (0xF00F : Word).toNat % 4096 = (0x000F : Word).toNat % 4096 ∧
    step ({ State.reset with i := 0x000F }.withFetchWord 16 0xFF65) = .next t := ⟨_, by decide, rfl⟩

/-- `x` = 15: the first draw collides and writes `VF`, and `w` holds the coordinate again. -/
theorem witness_DrawTwice : ∃ t, let s : State :=
      { State.reset with i := 0x0050, fb := toggleCell clearDisplay 0 0, v := State.reset.v.set 15 64 }
    let w : Vector Byte 16 := (Vector.replicate 16 7).set 15 64 |>.set 1 0
    exec (.drw 15 1 15) s = .next t ∧ t.v[(15 : RegIx)] = 1 ∧ w[(15 : RegIx)] = s.v[(15 : RegIx)] ∧
      w[(1 : RegIx)] = s.v[(1 : RegIx)] :=
  ⟨_, rfl, rfl, rfl, rfl⟩

theorem witness_SecondDraw : ∃ t u, exec (.drw 0 1 1) { State.reset with i := 0x0050 } = .next t ∧
    t.v[(0 : RegIx)] = State.reset.v[(0 : RegIx)] ∧ t.v[(1 : RegIx)] = State.reset.v[(1 : RegIx)] ∧
    exec (.drw 0 1 1) t = .next u ∧ (∃ dy < (1 : Nibble).toNat, State.reset.mem.read ((0x0050 + dy) % 4096) ≠ 0) :=
  ⟨_, _, rfl, rfl, rfl, rfl, 0, by decide⟩

theorem witness_OnlyClearAndDraw_frame : ∃ t, exec (.ldF 0) State.reset = .next t ∧ Instr.ldF 0 ≠ .cls ∧
    (∀ x y n, Instr.ldF 0 ≠ .drw x y n) := ⟨_, rfl, by simp, by simp⟩

theorem witness_OnlyClearAndDraw_dirty : ∃ t, step { State.reset with dirty := true } = .next t ∧
    ({ State.reset with dirty := true } : State).dirty = true := ⟨_, rfl, rfl⟩

theorem witness_StepsNeverCountTimers : ∃ t, exec (.ldSTVx 0) { State.reset with dt := 9 } = .next t ∧
    (∀ x, Instr.ldSTVx 0 ≠ .ldDTVx x) := ⟨_, rfl, by simp⟩

theorem witness_StepsNeverCountTimers_sound : ∃ t, exec (.ldDTVx 0) { State.reset with st := 9 } = .next t ∧
    (∀ x, Instr.ldDTVx 0 ≠ .ldSTVx x) := ⟨_, rfl, by simp⟩

theorem witness_SoundFollows : ∃ t, exec (.ldSTVx 5) (regs [(5, 255)]) = .next t := ⟨_, rfl⟩

theorem witness_KeysChangeBySetKeysOnly : let cs : List Command := [.step, .tick, .load [], .consumeDirtyFlag, .getDisplay]
    ∀ c ∈ cs, c.keepsKeys = true := by
  simp [Command.keepsKeys]

theorem witness_WaitForKey_none : ∀ k : Fin 16, State.reset.key[k] = false := by decide

theorem witness_WaitForKey_some : (keys [15])[(15 : Fin 16)] = true ∧ (∀ j : Fin 16, j < 15 → (keys [15])[j] = false) ∧
    (keys [0])[(0 : Fin 16)] = true ∧ (∀ j : Fin 16, j < 0 → (keys [0])[j] = false) := by decide

theorem witness_WaitForKeyEnds : let s := State.reset.withFetchWord 16 0xF50A
    s.halt = false ∧ decode s.fetch = .known (.ldVxK 5) ∧ (∀ j : Fin 16, s.key[j] = false) := by decide

theorem witness_OnlyCallAndReturn : ∃ t, exec .ret { State.reset with sp := 1 } = .next t ∧ (∀ nnn, Instr.ret ≠ .call nnn) :=
  ⟨_, rfl, by simp⟩

theorem witness_OnlyCallAndReturn_sp : ∃ t, exec (.jp 0) State.reset = .next t ∧ (∀ nnn, Instr.jp 0 ≠ .call nnn) ∧
    Instr.jp 0 ≠ .ret := ⟨_, rfl, by simp, by simp⟩

theorem witness_ProgramCounterAdvances_stall : ∃ t, exec (.ldVxK 0) State.reset = .next t ∧ Instr.ldVxK 0 ≠ .ret ∧
    (∀ nnn, Instr.ldVxK 0 ≠ .jp nnn) ∧ (∀ nnn, Instr.ldVxK 0 ≠ .call nnn) ∧ (∀ nnn, Instr.ldVxK 0 ≠ .jpV0 nnn) :=
  ⟨_, rfl, by simp, by simp, by simp, by simp⟩

theorem witness_ProgramCounterAdvances_skip : ∃ t, exec (.seImm 0 0) State.reset = .next t ∧ Instr.seImm 0 0 ≠ .ret ∧
    (∀ nnn, Instr.seImm 0 0 ≠ .jp nnn) ∧ (∀ nnn, Instr.seImm 0 0 ≠ .call nnn) ∧ (∀ nnn, Instr.seImm 0 0 ≠ .jpV0 nnn) ∧
    t.pc = State.reset.pc + 4 := ⟨_, rfl, by simp, by simp, by simp, by simp, by decide⟩

theorem witness_EndedRunStays : (State.reset.withFetchWord 16 0x1200).ended :=
  ⟨rfl, 0x200, by decide, by decide⟩

theorem witness_StepKeepsTheInvariant : ∃ t, State.reset.Inv ∧ step State.reset = .next t := ⟨_, ⟨by decide, by decide⟩, rfl⟩

theorem witness_EveryCommandKeeps : (⟨State.reset, .running⟩ : Session).core.Inv := ⟨by decide, by decide⟩

theorem witness_EveryCommandKeeps_reachable : (Session.boot State.reset Config.defaultFont).Reachable :=
  ⟨State.reset, Config.defaultFont, [], rfl⟩

theorem witness_CanonicalMemories : let m : Memory := [(0x050, 0), (0xFFF, 7)]
    m.wf = true ∧ m.wf = true ∧ (∀ a, m.read a = m.read a) := ⟨by decide, by decide, fun _ => rfl⟩

theorem witness_InitializeResets_ranges : (0x04F < 4096 ∧ 0x04F < 0x050) ∧ (0x0A0 < 4096 ∧ 0x0A0 ≤ 0x0A0) := by decide

theorem witness_LoadPlaces_accepted : (List.replicate 3584 (0 : Byte)).length ≤ 3584 ∧ State.reset.halt = false :=
  ⟨by rw [List.length_replicate], rfl⟩

theorem witness_LoadPlaces_refused : 3584 < (List.replicate 3585 (0 : Byte)).length ∧
    ({ State.reset with halt := true, fault := 3 } : State).halt = true :=
  ⟨by rw [List.length_replicate]; omega, rfl⟩

theorem witness_LoadPlaces_awaiting : let h := Session.boot State.reset Config.defaultFont
    h.phase = .awaitingLoad ∧ (List.replicate 3584 (0 : Byte)).length ≤ 3584 ∧ h.core.halt = false :=
  ⟨rfl, by rw [List.length_replicate], rfl⟩

theorem witness_LoadPlaces_awaiting_refused : let h := Session.boot State.reset Config.defaultFont
    h.phase = .awaitingLoad ∧ (3584 < (List.replicate 3585 (0 : Byte)).length ∨ h.core.halt = true) :=
  ⟨rfl, .inl (by rw [List.length_replicate]; omega)⟩

theorem witness_LoadPlaces_awaiting_halted : let h : Session := ⟨{ State.reset with halt := true, fault := 3 }, .awaitingLoad⟩
    h.phase = .awaitingLoad ∧ (3584 < ([] : List Byte).length ∨ h.core.halt = true) := ⟨rfl, .inr rfl⟩

theorem witness_LoadPlaces_running : (⟨State.reset, .running⟩ : Session).phase = .running := rfl

theorem witness_LoadPlaces_once : ((Session.boot State.reset Config.defaultFont).perform (.load [])).1 = .load .accepted := rfl

theorem witness_LoadPlaces_outside : (0x1FF < 4096 ∧ 0x1FF < 0x200) ∧
    (0x202 < 4096 ∧ 0x200 + ([0x12, 0x00] : List Byte).length ≤ 0x202) := by decide

end Sys2Proof.Tests
end

