-- ==== Sys2Proof/Proofs/Completion.lean ====
section
/-! Every meaning answers a next state (spec/00_scope.md R3, spec/70_reset_and_hazards.md R206). -/

namespace Sys2Proof.Machine

/-! ### The meanings with more than one outcome -/

theorem execRet_completes (s : State) : ∃ t, execRet s = .next t := by
  unfold execRet
  split <;> exact ⟨_, rfl⟩

theorem execCall_completes (nnn : Addr) (s : State) : ∃ t, execCall nnn s = .next t := by
  unfold execCall
  split <;> exact ⟨_, rfl⟩

theorem execSkp_completes (x : RegIx) (s : State) : ∃ t, execSkp x s = .next t := by
  unfold execSkp
  split <;> exact ⟨_, rfl⟩

theorem execSknp_completes (x : RegIx) (s : State) : ∃ t, execSknp x s = .next t := by
  unfold execSknp
  split <;> exact ⟨_, rfl⟩

theorem execLdVxK_completes (x : RegIx) (s : State) : ∃ t, execLdVxK x s = .next t := by
  unfold execLdVxK
  split <;> exact ⟨_, rfl⟩

/-! ### Instructions and steps -/

/-- Five meanings branch; each of the other 29 is a `.next` as it is written. -/
theorem exec_completes (i : Instr) (s : State) : ∃ t, exec i s = .next t := by
  cases i
  case ret => exact execRet_completes s
  case call nnn => exact execCall_completes nnn s
  case skp x => exact execSkp_completes x s
  case sknp x => exact execSknp_completes x s
  case ldVxK x => exact execLdVxK_completes x s
  all_goals exact ⟨_, rfl⟩

/-- A `step` always answers a next state, and it is the one the host's command puts in place (R170). -/
theorem step_eq_next_stepped (s : State) : step s = .next s.stepped := by
  have hstep : ∃ t, step s = .next t := by
    cases hh : s.halt with
    | true => exact ⟨s, step_halted hh⟩
    | false =>
      cases hd : decode s.fetch with
      | unknown op => exact ⟨s, step_unknown hh hd⟩
      | known i => rw [step_known hh hd]; exact exec_completes i s
  obtain ⟨t, ht⟩ := hstep
  rw [State.stepped_of_step ht, ht]

/-- Settles O8, by cases on the instruction. -/
theorem everyInstructionCompletes : Obligations.EveryInstructionCompletes := exec_completes

end Sys2Proof.Machine
end

