-- ==== Sys2Proof/Proofs/Invariant.lean ====
section
/-! The invariant of the core (spec/10_state.md R35, R36) under an instruction, a step, a command and a sequence of commands
(spec/00_scope.md R12, spec/60_exceptions.md R168, R169). -/

namespace Sys2Proof.Machine

/-! ### What an instruction can do to memory and to the error latch -/

/-- Memory after an instruction: as before, but for the stores of `Fx33` and `Fx55` (R28). -/
theorem exec_mem_cases {i : Instr} {s t : State} (h : exec i s = .next t) :
    t.mem = s.mem ∨ (∃ x, i = .ldB x ∧ t.mem = (s.storeBcd (s.reg x)).mem) ∨
      ∃ x, i = .ldMemVx x ∧ t.mem = (s.storeRegs (regsUpTo x)).mem := by
  cases i
  case ret => rcases execRet_cases h with ⟨-, rfl⟩ | ⟨_, -, rfl⟩ <;> exact .inl rfl
  case call => rcases execCall_cases h with ⟨-, rfl⟩ | ⟨_, rfl⟩ <;> exact .inl rfl
  case skp => rcases execSkp_cases h with ⟨-, rfl⟩ | ⟨_, -, rfl⟩ <;> exact .inl rfl
  case sknp => rcases execSknp_cases h with ⟨-, rfl⟩ | ⟨_, -, rfl⟩ <;> exact .inl rfl
  case ldVxK => rcases execLdVxK_cases h with ⟨-, rfl⟩ | ⟨_, -, rfl⟩ <;> exact .inl rfl
  all_goals obtain rfl := Host.Outcome.next.inj h
  case ldB x => exact .inr (.inl ⟨x, rfl, rfl⟩)
  case ldMemVx x => exact .inr (.inr ⟨x, rfl, rfl⟩)
  all_goals exact .inl rfl

/-- `HALT` and `FAULT` after an instruction: as before, but for the three fatal errors, with where they come from
(R162, R163, R165, R166). -/
theorem exec_latch_cases {i : Instr} {s t : State} (h : exec i s = .next t) :
    (t.halt = s.halt ∧ t.fault = s.fault) ∨
      ((∃ nnn, i = .call nnn) ∧ s.sp.val = 16 ∧ t = s.raiseFatal FaultCode.stackOverflow) ∨
      (i = .ret ∧ s.sp.val = 0 ∧ t = s.raiseFatal FaultCode.stackUnderflow) ∨
      ∃ x, (i = .skp x ∨ i = .sknp x) ∧ 15 < (s.reg x).toNat ∧ t = s.raiseFatal FaultCode.invalidKeyIndex := by
  cases i
  case call nnn =>
    rcases execCall_cases h with ⟨hsp, ht⟩ | ⟨_, rfl⟩
    · exact .inr (.inl ⟨⟨nnn, rfl⟩, hsp, ht⟩)
    · exact .inl ⟨rfl, rfl⟩
  case ret =>
    rcases execRet_cases h with ⟨hsp, ht⟩ | ⟨_, -, rfl⟩
    · exact .inr (.inr (.inl ⟨rfl, hsp, ht⟩))
    · exact .inl ⟨rfl, rfl⟩
  case skp x =>
    rcases execSkp_cases h with ⟨hx, ht⟩ | ⟨_, -, rfl⟩
    · exact .inr (.inr (.inr ⟨x, .inl rfl, hx, ht⟩))
    · exact .inl ⟨rfl, rfl⟩
  case sknp x =>
    rcases execSknp_cases h with ⟨hx, ht⟩ | ⟨_, -, rfl⟩
    · exact .inr (.inr (.inr ⟨x, .inr rfl, hx, ht⟩))
    · exact .inl ⟨rfl, rfl⟩
  case ldVxK => rcases execLdVxK_cases h with ⟨-, rfl⟩ | ⟨_, -, rfl⟩ <;> exact .inl ⟨rfl, rfl⟩
  all_goals
    obtain rfl := Host.Outcome.next.inj h
    exact .inl ⟨rfl, rfl⟩

/-! ### The invariant's rules -/

/-- The latch check reads `HALT` and `FAULT` alone. -/
theorem State.latchOk_congr {s t : State} (hh : t.halt = s.halt) (hf : t.fault = s.fault) : t.latchOk = s.latchOk := by
  simp only [State.latchOk, hh, hf]

/-- A fatal error with one of the codes 2, 3, 5 leaves a legal latch, whatever it was before (R36, R166). -/
theorem State.latchOk_raiseFatal (s : State) {code : FaultCode}
    (hc : code = FaultCode.stackOverflow ∨ code = FaultCode.stackUnderflow ∨ code = FaultCode.invalidKeyIndex) :
    (s.raiseFatal code).latchOk = true := by
  rcases hc with rfl | rfl | rfl <;> rfl

/-- The invariant survives whatever leaves `HALT` and `FAULT` alone and memory canonical. -/
theorem State.Inv.of_latch_eq {s t : State} (hs : s.Inv) (hmem : t.mem.wf = true) (hh : t.halt = s.halt)
    (hf : t.fault = s.fault) : t.Inv :=
  ⟨hmem, (State.latchOk_congr hh hf).trans hs.2⟩

/-! ### Instructions and steps -/

theorem exec_wf {i : Instr} {s t : State} (hs : s.mem.wf = true) (h : exec i s = .next t) : t.mem.wf = true := by
  rcases exec_mem_cases h with hm | ⟨x, -, hm⟩ | ⟨x, -, hm⟩ <;> rw [hm]
  · exact hs
  · exact State.wf_storeBcd hs _
  · exact State.wf_storeRegs hs _

theorem exec_latchOk {i : Instr} {s t : State} (hs : s.latchOk = true) (h : exec i s = .next t) : t.latchOk = true := by
  rcases exec_latch_cases h with ⟨hh, hf⟩ | ⟨-, -, rfl⟩ | ⟨-, -, rfl⟩ | ⟨_, -, -, rfl⟩
  · exact (State.latchOk_congr hh hf).trans hs
  · exact s.latchOk_raiseFatal (.inl rfl)
  · exact s.latchOk_raiseFatal (.inr (.inl rfl))
  · exact s.latchOk_raiseFatal (.inr (.inr rfl))

theorem exec_inv {i : Instr} {s t : State} (hs : s.Inv) (h : exec i s = .next t) : t.Inv := by
  obtain ⟨hmem, hlatch⟩ := hs
  exact ⟨exec_wf hmem h, exec_latchOk hlatch h⟩

theorem step_inv {s t : State} (hs : s.Inv) (h : step s = .next t) : t.Inv := by
  rcases step_cases h with ⟨-, rfl⟩ | ⟨-, -, rfl⟩ | ⟨-, i, -, hexec⟩
  · exact hs
  · exact hs
  · exact exec_inv hs hexec

/-! ### Commands -/

theorem Session.boot_inv (before : State) (font : Config.Font) : (Session.boot before font).core.Inv :=
  ⟨Memory.wf_foldl_font font, rfl⟩

theorem Session.performLoad_inv {h : Session} (hs : h.core.Inv) (image : List Byte) : (h.performLoad image).2.core.Inv := by
  rw [Session.performLoad_eq]
  split
  · exact hs.of_latch_eq (Memory.wf_storeFrom image hs.1 0x200) rfl rfl
  · exact hs

theorem Session.perform_inv {h : Session} (hs : h.core.Inv) (c : Command) : (h.perform c).2.core.Inv := by
  cases c with
  | initCore font => exact Session.boot_inv h.core font
  | load image => exact Session.performLoad_inv hs image
  | step => exact step_inv hs (step_eq_next_stepped h.core)
  | tick => exact hs.of_latch_eq hs.1 rfl rfl
  | setKeys k => exact hs.of_latch_eq hs.1 rfl rfl
  | consumeDirtyFlag => exact hs.of_latch_eq hs.1 rfl rfl
  | getDisplay => exact hs

/-! ### Sequences of commands -/

/-- What each command of a sequence keeps, the sequence keeps. -/
theorem Session.run_keeps {P : Session → Prop} {cs : List Command} (hcs : ∀ c ∈ cs, ∀ h : Session, P h → P (h.perform c).2)
    {h : Session} (hs : P h) : P (h.run cs) := by
  induction cs generalizing h with
  | nil => exact hs
  | cons c rest ih =>
    obtain ⟨hc, hrest⟩ := List.forall_mem_cons.mp hcs
    exact ih hrest (hc h hs)

/-- A property that every boot of a session meets and every command keeps holds of every reachable session (R12). -/
theorem Session.Reachable.invariant {P : Session → Prop} (hboot : ∀ before font, P (Session.boot before font))
    (hcmd : ∀ (h : Session) (c : Command), P h → P (h.perform c).2) {h : Session} (hr : h.Reachable) : P h := by
  obtain ⟨before, font, cs, rfl⟩ := hr
  exact Session.run_keeps (fun c _ h => hcmd h c) (hboot before font)

/-- Settles O57: the step lemma over commands, its base case, and the induction over commands. -/
theorem everyCommandKeepsTheInvariant : Obligations.EveryCommandKeepsTheInvariant :=
  ⟨fun _ c hs => Session.perform_inv hs c, Session.boot_inv,
    fun _ hr => hr.invariant (P := fun h => h.core.Inv) Session.boot_inv (fun _ c hs => Session.perform_inv hs c)⟩

end Sys2Proof.Machine
end

