-- ==== Sys2Proof/Proofs/StateInvariant.lean ====
section
/-! The invariant of the core (spec/10_state.md R35, R36) after reset and under a step. -/

namespace Sys2Proof.Machine

/-- Settles O55, from what an instruction can do to memory and to the error latch. -/
theorem stepKeepsTheInvariant : Obligations.StepKeepsTheInvariant :=
  fun _ _ => step_inv

/-- Settles O56: nothing is listed in memory after reset, and neither `HALT` nor `FAULT` is set. -/
theorem resetMeetsTheInvariant : Obligations.ResetMeetsTheInvariant :=
  ⟨rfl, rfl⟩

end Sys2Proof.Machine
end

