-- ==== Sys2Proof/Proofs/Frame.lean ====
section
/-! What an instruction leaves unchanged (spec/10_state.md R20 to R36): its footprint, said once, and the frame of each field. -/

namespace Sys2Proof.Machine

/-- `s` with the fields that `i` may write taken from `t`, every other field kept. -/
def footprint (i : Instr) (s t : State) : State :=
  match i with
  | .jp _ | .jpV0 _ | .seImm _ _ | .sneImm _ _ | .seReg _ _ | .sneReg _ _ => { s with pc := t.pc }
  | .ret => { s with sp := t.sp, pc := t.pc, halt := t.halt, fault := t.fault }
  | .call _ => { s with stack := t.stack, sp := t.sp, pc := t.pc, halt := t.halt, fault := t.fault }
  | .skp _ | .sknp _ => { s with pc := t.pc, halt := t.halt, fault := t.fault }
  | .ldImm _ _ | .addImm _ _ | .ldReg _ _ | .orReg _ _ | .andReg _ _ | .xorReg _ _ | .addReg _ _ | .subReg _ _
  | .shr _ _ | .subnReg _ _ | .shl _ _ | .ldVxDT _ | .ldVxK _ => { s with v := t.v, pc := t.pc }
  | .rnd _ _ => { s with v := t.v, pc := t.pc, draws := t.draws }
  | .ldI _ | .addI _ | .ldF _ => { s with i := t.i, pc := t.pc }
  | .ldVxMem _ => { s with v := t.v, i := t.i, pc := t.pc }
  | .ldB _ | .ldMemVx _ => { s with mem := t.mem, pc := t.pc }
  | .cls => { s with fb := t.fb, dirty := t.dirty, pc := t.pc }
  | .drw _ _ _ => { s with fb := t.fb, dirty := t.dirty, v := t.v, pc := t.pc }
  | .ldDTVx _ => { s with dt := t.dt, pc := t.pc }
  | .ldSTVx _ => { s with st := t.st, pc := t.pc }

/-- An instruction writes nothing outside its footprint. -/
theorem exec_footprint {i : Instr} {s t : State} (h : exec i s = .next t) : t = footprint i s t := by
  cases i
  case ret => rcases execRet_cases h with ⟨-, rfl⟩ | ⟨_, -, rfl⟩ <;> rfl
  case call => rcases execCall_cases h with ⟨-, rfl⟩ | ⟨_, rfl⟩ <;> rfl
  case skp => rcases execSkp_cases h with ⟨-, rfl⟩ | ⟨_, -, rfl⟩ <;> rfl
  case sknp => rcases execSknp_cases h with ⟨-, rfl⟩ | ⟨_, -, rfl⟩ <;> rfl
  case ldVxK => rcases execLdVxK_cases h with ⟨-, rfl⟩ | ⟨_, -, rfl⟩ <;> rfl
  all_goals
    obtain rfl := Host.Outcome.next.inj h
    rfl

/-! ### Memory, the address register, the timers and the stack -/

/-- Settles O35, from the three things an instruction can do to memory. -/
theorem onlyTwoInstructionsWriteMemory : Obligations.OnlyTwoInstructionsWriteMemory := by
  intro i s t h hldB hldMemVx
  rcases exec_mem_cases h with hmem | ⟨x, rfl, -⟩ | ⟨x, rfl, -⟩
  · exact hmem
  · exact absurd rfl (hldB x)
  · exact absurd rfl (hldMemVx x)

/-- Settles O36: outside the four named instructions the footprint has no `I`. -/
theorem onlyFourInstructionsWriteIndex : Obligations.OnlyFourInstructionsWriteIndex := by
  intro i s t h hldI haddI hldF hldVxMem
  rw [exec_footprint h]
  cases i with
  | ldI nnn => exact absurd rfl (hldI nnn)
  | addI x => exact absurd rfl (haddI x)
  | ldF x => exact absurd rfl (hldF x)
  | ldVxMem x => exact absurd rfl (hldVxMem x)
  | _ => rfl

/-- `DT` is in the footprint of `Fx15` alone (R31). -/
theorem exec_dt_eq {i : Instr} {s t : State} (h : exec i s = .next t) (hi : ∀ x, i ≠ .ldDTVx x) : t.dt = s.dt := by
  rw [exec_footprint h]
  cases i with
  | ldDTVx x => exact absurd rfl (hi x)
  | _ => rfl

/-- `ST` is in the footprint of `Fx18` alone (R31). -/
theorem exec_st_eq {i : Instr} {s t : State} (h : exec i s = .next t) (hi : ∀ x, i ≠ .ldSTVx x) : t.st = s.st := by
  rw [exec_footprint h]
  cases i with
  | ldSTVx x => exact absurd rfl (hi x)
  | _ => rfl

/-- Settles O47, from the footprints with `DT` and with `ST`. -/
theorem stepsNeverCountTimers : Obligations.StepsNeverCountTimers :=
  fun _ _ _ h => ⟨exec_dt_eq h, exec_st_eq h⟩

/-- The stack entries are in the footprint of `2nnn` alone (R29). -/
theorem exec_stack_eq {i : Instr} {s t : State} (h : exec i s = .next t) (hcall : ∀ nnn, i ≠ .call nnn) :
    t.stack = s.stack := by
  rw [exec_footprint h]
  cases i with
  | call nnn => exact absurd rfl (hcall nnn)
  | _ => rfl

/-- `SP` is in the footprints of `2nnn` and `00EE` alone (R29). -/
theorem exec_sp_eq {i : Instr} {s t : State} (h : exec i s = .next t) (hcall : ∀ nnn, i ≠ .call nnn) (hret : i ≠ .ret) :
    t.sp = s.sp := by
  rw [exec_footprint h]
  cases i with
  | call nnn => exact absurd rfl (hcall nnn)
  | ret => exact absurd rfl hret
  | _ => rfl

/-- Settles O52, from the footprints with the stack entries and with `SP`. -/
theorem onlyCallAndReturnTouchTheStack : Obligations.OnlyCallAndReturnTouchTheStack :=
  fun _ _ _ h hcall => ⟨exec_stack_eq h hcall, exec_sp_eq h hcall⟩

/-! ### The display -/

/-- The cells and `DIRTY` are in the footprints of `00E0` and `Dxyn` alone (R143). -/
theorem exec_display_eq {i : Instr} {s t : State} (h : exec i s = .next t) (hcls : i ≠ .cls)
    (hdrw : ∀ x y n, i ≠ .drw x y n) : t.fb = s.fb ∧ t.dirty = s.dirty := by
  rw [exec_footprint h]
  cases i with
  | cls => exact absurd rfl hcls
  | drw x y n => exact absurd rfl (hdrw x y n)
  | _ => exact ⟨rfl, rfl⟩

/-- An instruction keeps `DIRTY` or sets it (R34). -/
theorem exec_dirty_cases {i : Instr} {s t : State} (h : exec i s = .next t) : t.dirty = s.dirty ∨ t.dirty = true := by
  cases i with
  | cls | drw =>
    obtain rfl := Host.Outcome.next.inj h
    exact .inr rfl
  | _ =>
    rw [exec_footprint h]
    exact .inl rfl

theorem step_keeps_dirty {s t : State} (h : step s = .next t) (hs : s.dirty = true) : t.dirty = true := by
  rcases step_cases h with ⟨-, rfl⟩ | ⟨-, -, rfl⟩ | ⟨-, i, -, hexec⟩
  · exact hs
  · exact hs
  · rcases exec_dirty_cases hexec with hkept | hset
    · exact hkept.trans hs
    · exact hset

/-- Settles O42, from the footprints with the display, and `DIRTY` kept or set. -/
theorem onlyClearAndDrawWriteTheDisplay : Obligations.OnlyClearAndDrawWriteTheDisplay :=
  ⟨fun _ _ _ => exec_display_eq, fun _ _ => step_keeps_dirty⟩

/-! ### The registers -/

/-- A register other than the one written keeps its value (R20). -/
theorem State.reg_setReg_of_ne (s : State) {x r : RegIx} (hr : r ≠ x) (b : Byte) : (s.setReg x b).reg r = s.reg r := by
  rw [State.reg_setReg, if_neg hr.symm]

/-- A register that is neither the destination nor `VF` keeps its value under flag and result (R21, R22). -/
theorem State.reg_setFlagThenReg_of_ne (s : State) {x r : RegIx} (f : Bool) (hx : r ≠ x) (hf : r ≠ 15) (b : Byte) :
    (s.setFlagThenReg f x b).reg r = s.reg r := by
  rw [State.reg_setFlagThenReg, if_neg hx.symm, if_neg hf]

/-- A register above the range keeps its value under the loads of `Fx65` (R135). -/
theorem State.reg_loadRegs_of_not_le (s : State) {x r : RegIx} (hr : ¬ r ≤ x) : (s.loadRegs (regsUpTo x)).reg r = s.reg r := by
  rw [State.reg_loadRegs, if_neg hr]

/-- A register outside `mayWriteReg` keeps its value, by the kind of writer: one destination, `VF` and a destination, `VF`
alone, a range, none (R20, R21). -/
theorem exec_reg_eq {i : Instr} {s t : State} {r : RegIx} (h : exec i s = .next t) (hr : mayWriteReg i r = false) :
    t.reg r = s.reg r := by
  cases i with
  | ldImm x _ | addImm x _ | ldReg x _ | orReg x _ | andReg x _ | xorReg x _ | rnd x _ | ldVxDT x =>
    obtain rfl := Host.Outcome.next.inj h
    exact s.reg_setReg_of_ne (of_decide_eq_false hr) _
  | ldVxK x =>
    rcases execLdVxK_cases h with ⟨-, rfl⟩ | ⟨_, -, rfl⟩
    · rfl
    · exact s.reg_setReg_of_ne (of_decide_eq_false hr) _
  | addReg x _ | subReg x _ | shr x _ | subnReg x _ | shl x _ =>
    obtain rfl := Host.Outcome.next.inj h
    obtain ⟨hx, hf⟩ := Bool.or_eq_false_iff.mp hr
    exact s.reg_setFlagThenReg_of_ne _ (of_decide_eq_false hx) (of_decide_eq_false hf) _
  | drw =>
    obtain rfl := Host.Outcome.next.inj h
    exact State.reg_setReg_of_ne _ (of_decide_eq_false hr) _
  | ldVxMem x =>
    obtain rfl := Host.Outcome.next.inj h
    exact s.reg_loadRegs_of_not_le (of_decide_eq_false hr)
  | _ =>
    rw [exec_footprint h]
    rfl

/-- Settles O27, by cases on the kind of register write. -/
theorem onlyNamedRegistersChange : Obligations.OnlyNamedRegistersChange :=
  fun _ _ _ _ => exec_reg_eq

/-! ### The program counter -/

theorem State.skipIf_pc_cases (s : State) (c : Bool) : (s.skipIf c).pc = s.pc + 2 ∨ (s.skipIf c).pc = s.pc + 4 := by
  cases c
  · exact .inl rfl
  · exact .inr rfl

/-- Settles O53: skips by their condition, key skips and `Fx0A` by their outcomes; every other instruction advances. -/
theorem programCounterAdvances : Obligations.ProgramCounterAdvances := by
  intro i s t h hret hjp hcall hjpV0
  cases i
  case ret => exact absurd rfl hret
  case jp nnn => exact absurd rfl (hjp nnn)
  case call nnn => exact absurd rfl (hcall nnn)
  case jpV0 nnn => exact absurd rfl (hjpV0 nnn)
  case skp x =>
    rcases execSkp_cases h with ⟨-, rfl⟩ | ⟨_, -, rfl⟩
    · exact .inr (.inr ⟨rfl, x, .inr ⟨.inl rfl, rfl⟩⟩)
    · exact (s.skipIf_pc_cases _).imp_right fun h4 => .inl ⟨h4, .inr (.inr ⟨x, .inl rfl⟩)⟩
  case sknp x =>
    rcases execSknp_cases h with ⟨-, rfl⟩ | ⟨_, -, rfl⟩
    · exact .inr (.inr ⟨rfl, x, .inr ⟨.inr rfl, rfl⟩⟩)
    · exact (s.skipIf_pc_cases _).imp_right fun h4 => .inl ⟨h4, .inr (.inr ⟨x, .inr rfl⟩)⟩
  case ldVxK x =>
    rcases execLdVxK_cases h with ⟨-, rfl⟩ | ⟨_, -, rfl⟩
    · exact .inr (.inr ⟨rfl, x, .inl ⟨rfl, rfl⟩⟩)
    · exact .inl rfl
  all_goals obtain rfl := Host.Outcome.next.inj h
  case seImm x nn => exact (s.skipIf_pc_cases _).imp_right fun h4 => .inl ⟨h4, .inl ⟨x, nn, .inl rfl⟩⟩
  case sneImm x nn => exact (s.skipIf_pc_cases _).imp_right fun h4 => .inl ⟨h4, .inl ⟨x, nn, .inr rfl⟩⟩
  case seReg x y => exact (s.skipIf_pc_cases _).imp_right fun h4 => .inl ⟨h4, .inr (.inl ⟨x, y, .inl rfl⟩)⟩
  case sneReg x y => exact (s.skipIf_pc_cases _).imp_right fun h4 => .inl ⟨h4, .inr (.inl ⟨x, y, .inr rfl⟩)⟩
  all_goals exact .inl rfl

end Sys2Proof.Machine
end

