-- ==== Sys2Proof/Proofs/HighIndexBits.lean ====
section
/-! Bits 15:12 of `I` are not observable (spec/10_state.md R23, spec/20_memory.md R51): an instruction run with another `I` of
the same residue modulo 4096 does the same to everything else. -/

namespace Sys2Proof.Machine

variable {s t : State} {j : Word}

/-! ### The operations that read `I` -/

/-- Effective addresses see `I` modulo 4096 (R51). -/
theorem State.ea_setI (hj : j.toNat % 4096 = s.i.toNat % 4096) : (s.setI j).ea = s.ea := by
  funext k
  simp only [State.ea, State.setI_i]
  omega

theorem State.storeBcd_setI (hj : j.toNat % 4096 = s.i.toNat % 4096) (b : Byte) :
    (s.setI j).storeBcd b = (s.storeBcd b).setI j := by
  simp only [State.storeBcd, State.ea_setI hj]
  rfl

theorem State.storeRegs_setI (hj : j.toNat % 4096 = s.i.toNat % 4096) (ks : List RegIx) :
    (s.setI j).storeRegs ks = (s.storeRegs ks).setI j := by
  simp only [State.storeRegs, State.ea_setI hj]
  rfl

theorem State.loadRegs_setI (hj : j.toNat % 4096 = s.i.toNat % 4096) (ks : List RegIx) :
    (s.setI j).loadRegs ks = (s.loadRegs ks).setI j := by
  simp only [State.loadRegs, State.ea_setI hj]
  rfl

theorem State.drawSprite_setI (hj : j.toNat % 4096 = s.i.toNat % 4096) (x0 y0 : Byte) (n : Nat) (p : Display × Bool) :
    (s.setI j).drawSprite x0 y0 n p = s.drawSprite x0 y0 n p := by
  simp only [State.drawSprite, State.ea_setI hj]
  rfl

/-- `Fx1E` reduces its sum modulo 4096 (R131). -/
theorem indexSum_congr {i : Word} (hj : j.toNat % 4096 = i.toNat % 4096) (b : Byte) : indexSum j b = indexSum i b := by
  simp only [indexSum, Nat.add_mod _ b.toNat 4096, hj]

/-- `Fx65`'s new `I` keeps the residue modulo 4096, since 4096 divides 65536 (R135, decision D3). -/
theorem indexAfterLoad_congr {i : Word} (hj : j.toNat % 4096 = i.toNat % 4096) (x : RegIx) :
    (indexAfterLoad j x).toNat % 4096 = (indexAfterLoad i x).toNat % 4096 := by
  simp only [indexAfterLoad, BitVec.toNat_ofNat]
  omega

/-! ### The meanings with more than one outcome: each takes the same branch, whatever `I` is -/

theorem execRet_setI (h : execRet s = .next t) : execRet (s.setI j) = .next (t.setI j) := by
  rcases execRet_cases h with ⟨hsp, rfl⟩ | ⟨k, hsp, rfl⟩
  · exact dif_pos hsp
  · simp only [execRet, State.setI_sp, hsp]
    rfl

theorem execCall_setI {nnn : Addr} (h : execCall nnn s = .next t) : execCall nnn (s.setI j) = .next (t.setI j) := by
  rcases execCall_cases h with ⟨hsp, rfl⟩ | ⟨hsp, rfl⟩
  · exact dif_neg (by simp [hsp])
  · exact dif_pos hsp

@[simp] theorem State.reg_setI (s : State) (a : Word) (x : RegIx) : (s.setI a).reg x = s.reg x := rfl

@[simp] theorem State.lowestKey_setI (s : State) (a : Word) : (s.setI a).lowestKey = s.lowestKey := rfl

theorem execSkp_setI {x : RegIx} (h : execSkp x s = .next t) : execSkp x (s.setI j) = .next (t.setI j) := by
  rcases execSkp_cases h with ⟨hx, rfl⟩ | ⟨k, hk, rfl⟩
  · simp only [execSkp, State.reg_setI, keyIndex_eq_none.mpr hx]
    rfl
  · simp only [execSkp, State.reg_setI, keyIndex_eq_some.mpr hk]
    rfl

theorem execSknp_setI {x : RegIx} (h : execSknp x s = .next t) : execSknp x (s.setI j) = .next (t.setI j) := by
  rcases execSknp_cases h with ⟨hx, rfl⟩ | ⟨k, hk, rfl⟩
  · simp only [execSknp, State.reg_setI, keyIndex_eq_none.mpr hx]
    rfl
  · simp only [execSknp, State.reg_setI, keyIndex_eq_some.mpr hk]
    rfl

theorem execLdVxK_setI {x : RegIx} (h : execLdVxK x s = .next t) : execLdVxK x (s.setI j) = .next (t.setI j) := by
  rcases execLdVxK_cases h with ⟨hup, rfl⟩ | ⟨k, hk, rfl⟩
  · simp only [execLdVxK, State.lowestKey_setI, State.lowestKey_eq_none.mpr hup]
  · simp only [execLdVxK, State.lowestKey_setI, State.lowestKey_eq_some.mpr hk]
    rfl

/-! ### Instructions and steps -/

/-- `I` stays what it is unless the instruction writes it: a new value altogether, or a sum with the residue of the old one. -/
theorem exec_setI {i : Instr} (hj : j.toNat % 4096 = s.i.toNat % 4096) (h : exec i s = .next t) :
    ∃ j' : Word, exec i (s.setI j) = .next (t.setI j') ∧ j'.toNat % 4096 = t.i.toNat % 4096 := by
  cases i
  case ret => exact ⟨j, execRet_setI h, by rw [exec_footprint h]; exact hj⟩
  case call => exact ⟨j, execCall_setI h, by rw [exec_footprint h]; exact hj⟩
  case skp => exact ⟨j, execSkp_setI h, by rw [exec_footprint h]; exact hj⟩
  case sknp => exact ⟨j, execSknp_setI h, by rw [exec_footprint h]; exact hj⟩
  case ldVxK => exact ⟨j, execLdVxK_setI h, by rw [exec_footprint h]; exact hj⟩
  all_goals obtain rfl := Host.Outcome.next.inj h
  case ldI nnn => exact ⟨zext16 nnn, rfl, rfl⟩
  case ldF x => exact ⟨glyphAddress (s.reg x), rfl, rfl⟩
  case addI x => exact ⟨indexSum j (s.reg x), rfl, by rw [indexSum_congr hj]; rfl⟩
  case ldVxMem x =>
    refine ⟨indexAfterLoad j x, ?_, indexAfterLoad_congr hj x⟩
    rw [exec, execLdVxMem, State.loadRegs_setI hj]
    rfl
  case ldB x =>
    refine ⟨j, ?_, hj⟩
    rw [exec, execLdB, State.storeBcd_setI hj]
    rfl
  case ldMemVx x =>
    refine ⟨j, ?_, hj⟩
    rw [exec, execLdMemVx, State.storeRegs_setI hj]
    rfl
  case drw x y n =>
    refine ⟨j, ?_, hj⟩
    simp only [exec, execDrw, State.drawSprite_setI hj]
    rfl
  all_goals exact ⟨j, rfl, hj⟩

theorem step_setI (hj : j.toNat % 4096 = s.i.toNat % 4096) (h : step s = .next t) :
    ∃ j' : Word, step (s.setI j) = .next (t.setI j') ∧ j'.toNat % 4096 = t.i.toNat % 4096 := by
  rcases step_cases h with ⟨hhalt, rfl⟩ | ⟨hrun, ⟨_, hdec⟩, rfl⟩ | ⟨hrun, i, hdec, hexec⟩
  · exact ⟨j, step_halted hhalt, hj⟩
  · exact ⟨j, step_unknown hrun hdec, hj⟩
  · rw [step_known (s := s.setI j) hrun hdec]
    exact exec_setI hj hexec

/-- Settles O37: the two states take the same branch of `step`, and the instruction reads `I` modulo 4096 alone. -/
theorem highBitsOfIndexAreUnobservable : Obligations.HighBitsOfIndexAreUnobservable :=
  fun _ _ _ => step_setI

end Sys2Proof.Machine
end

