-- ==== Sys2Proof/Proofs/Memory.lean ====
section
/-! The fetch and the memory it reads (spec/20_memory.md R50 to R60): the byte order of an opcode, a store seen by the next
fetch, and canonical memories as what they read as. -/

namespace Sys2Proof.Machine

/-! ### The fetched word -/

/-- The byte at the lower address is the high one (R52). -/
theorem opcodeOfBytes_toNat (first second : Byte) :
    (opcodeOfBytes first second).toNat = 256 * first.toNat + second.toNat := by
  rw [opcodeOfBytes, append_toNat]
  omega

theorem State.fetch_toNat (s : State) :
    s.fetch.toNat = 256 * (s.mem.read s.pc.toNat).toNat + (s.mem.read (s.pc.toNat + 1)).toNat :=
  opcodeOfBytes_toNat _ _

/-- Settles O6: the bytes of the fetched word in their order, and reads see addresses modulo 4096. -/
theorem fetchIsBigEndian : Obligations.FetchIsBigEndian := fun s => by
  rw [Memory.read_mod, Memory.read_mod, s.fetch_toNat]

/-! ### A store seen by the next fetch -/

/-- What `Fx55` stored is read at every address of the same cell (R51, R134). -/
theorem State.read_storeRegs_of_mod_eq (s : State) {x k : RegIx} (hk : k ≤ x) {a : Nat} (ha : a % 4096 = s.ea k.val) :
    (s.storeRegs (regsUpTo x)).mem.read a = s.reg k := by
  rw [← Memory.read_mod, ha, s.read_storeRegs_inside hk]

/-- Settles O34: `PC + 2` and `PC + 3` are the cells `EA(0)` and `EA(1)` of the store. -/
theorem storedBytesAreFetchedNext : Obligations.StoredBytesAreFetchedNext := by
  intro s t x hx hi hexec
  obtain rfl := Host.Outcome.next.inj hexec
  have hfirst : (s.pc + 2).toNat % 4096 = s.ea 0 := hi.symm
  have hsecond : ((s.pc + 2).toNat + 1) % 4096 = s.ea 1 := by
    unfold State.ea
    omega
  rw [State.fetch_toNat]
  congr 3
  · exact s.read_storeRegs_of_mod_eq (k := 0) (Fin.zero_le x) hfirst
  · exact s.read_storeRegs_of_mod_eq (k := 1) hx hsecond

/-! ### Canonical memories -/

/-- In an ascending list the entry of a cell is the one a lookup finds. -/
theorem Memory.lookup_of_mem {m : Memory} (hm : m.Pairwise (fun c d => c.1 < d.1)) {c : Host.Cell} (hc : c ∈ m) :
    m.lookup c.1 = c.2 := by
  induction m with
  | nil => cases hc
  | cons d rest ih =>
    obtain ⟨hd, hrest⟩ := List.pairwise_cons.mp hm
    rcases List.mem_cons.mp hc with rfl | hc
    · exact if_pos rfl
    · exact (if_neg (hd c hc).ne).trans (ih hrest hc)

/-- A cell that does not read as its reset contents is listed with the byte it reads as. -/
theorem Memory.mem_of_lookup_ne_unlisted {m : Memory} {a : Nat} (h : m.lookup a ≠ Memory.unlisted a) :
    (a, m.lookup a) ∈ m := by
  induction m with
  | nil => exact absurd rfl h
  | cons d rest ih =>
    by_cases hd : d.1 = a
    · simp [Memory.lookup, ← hd]
    · simp only [Memory.lookup, hd, if_false] at h ⊢
      exact List.mem_cons_of_mem d (ih h)

/-- The entries of a canonical memory, by its reads: the cells that differ from their reset contents (log entry 12). -/
theorem Memory.mem_iff_of_wf {m : Memory} (hm : m.wf = true) {a : Nat} {b : Byte} :
    (a, b) ∈ m ↔ a < 4096 ∧ m.read a = b ∧ b ≠ Memory.unlisted a := by
  obtain ⟨hasc, hlisted⟩ := (Memory.wf_iff m).mp hm
  have hread (ha : a < 4096) : m.read a = m.lookup a := by
    rw [Memory.read, Memory.cellOf, Nat.mod_eq_of_lt ha]
  constructor
  · intro hmem
    obtain ⟨ha, hne⟩ := hlisted _ hmem
    exact ⟨ha, (hread ha).trans (Memory.lookup_of_mem hasc hmem), hne⟩
  · rintro ⟨ha, rfl, hne⟩
    rw [hread ha] at hne ⊢
    exact Memory.mem_of_lookup_ne_unlisted hne

/-- Settles O58: the reads determine the entries, and an ascending list is determined by its entries. -/
theorem canonicalMemoriesAreDeterminedByReads : Obligations.CanonicalMemoriesAreDeterminedByReads := by
  intro m m' hm hm' hread
  obtain ⟨hasc, -⟩ := (Memory.wf_iff m).mp hm
  obtain ⟨hasc', -⟩ := (Memory.wf_iff m').mp hm'
  have : Std.Asymm (fun c d : Host.Cell => c.1 < d.1) := ⟨fun _ _ => Nat.lt_asymm⟩
  refine hasc.eq_of_mem_iff hasc' (fun ⟨a, b⟩ => ?_)
  rw [Memory.mem_iff_of_wf hm, Memory.mem_iff_of_wf hm', hread]

end Sys2Proof.Machine
end

