-- ==== Sys2Proof/Proofs/Encoding.lean ====
section
/-! Decoder and encoder are inverse, and the decoder follows the opcode map (spec/30_encoding.md R71 to R77). -/

namespace Sys2Proof

/-! ### Decoding an encoded instruction -/

/-- Each field of an encoded word is the operand or the code the format put there (`Laws/Encoding.lean`), so every `match`
of the decoder takes the instruction's own arm. -/
theorem decode_encode (i : Instr) : decode (encode i) = .known i := by
  cases i
  case cls => rfl
  case ret => rfl
  case ldReg | orReg | andReg | xorReg | addReg | subReg | shr | subnReg | shl => simp [encode, decode, decode8]
  case skp | sknp => simp [encode, decode, decodeE]
  case ldVxDT | ldVxK | ldDTVx | ldSTVx | addI | ldF | ldB | ldMemVx | ldVxMem => simp [encode, decode, decodeF]
  all_goals simp [encode, decode]

/-- Settles O1, by cases on the instruction. -/
theorem decodeOfEncodeIsIdentity : Obligations.DecodeOfEncodeIsIdentity := decode_encode

/-- Settles O5: six of the words are encodings; 0x00E1 is none of the two words with top nibble 0. -/
theorem wordsOfTheTableDecode : Obligations.WordsOfTheTableDecode :=
  ⟨decode_encode (.call 0x345), decode_encode (.sneImm 10 0x5F), decode_encode (.subnReg 10 11), decode_encode (.ldB 3),
    decode_encode (.drw 1 2 15), decode_encode (.ldVxK 5), by decide⟩

/-! ### Encoding a decoded instruction -/

theorem formatA_of_fields {op : Word} {t : BitVec 4} (ht : fieldTop op = t) : formatA t (fieldNNN op) = op := by
  rw [← ht, formatA_fields]

theorem formatXI_of_fields {op : Word} {t : BitVec 4} {nn : Byte} (ht : fieldTop op = t) (hnn : fieldNN op = nn) :
    formatXI t (fieldX op) nn = op := by
  rw [← ht, ← hnn, formatXI_fields]

theorem formatXYN_of_fields {op : Word} {t : BitVec 4} {n : Nibble} (ht : fieldTop op = t) (hn : fieldN op = n) :
    formatXYN t (fieldX op) (fieldY op) n = op := by
  rw [← ht, ← hn, formatXYN_fields]

/-- Top nibble 0x0: the known words are the two the decoder compares with. -/
theorem decode0_cases (op : Word) : (∃ i, decode0 op = .known i ∧ encode i = op) ∨ decode0 op = .unknown op := by
  unfold decode0
  split
  · next h => exact .inl ⟨_, rfl, h.symm⟩
  · split
    · next h => exact .inl ⟨_, rfl, h.symm⟩
    · exact .inr rfl

theorem decode8_cases {op : Word} (ht : fieldTop op = 0x8) :
    (∃ i, decode8 op = .known i ∧ encode i = op) ∨ decode8 op = .unknown op := by
  unfold decode8
  split
  case h_10 => exact .inr rfl
  all_goals exact .inl ⟨_, rfl, formatXYN_of_fields ht ‹_›⟩

theorem decodeE_cases {op : Word} (ht : fieldTop op = 0xE) :
    (∃ i, decodeE op = .known i ∧ encode i = op) ∨ decodeE op = .unknown op := by
  unfold decodeE
  split
  case h_3 => exact .inr rfl
  all_goals exact .inl ⟨_, rfl, formatXI_of_fields ht ‹_›⟩

theorem decodeF_cases {op : Word} (ht : fieldTop op = 0xF) :
    (∃ i, decodeF op = .known i ∧ encode i = op) ∨ decodeF op = .unknown op := by
  unfold decodeF
  split
  case h_10 => exact .inr rfl
  all_goals exact .inl ⟨_, rfl, formatXI_of_fields ht ‹_›⟩

/-- All the decoder can answer (R75): an instruction the word is the encoding of, or `Unknown` with the word itself. -/
theorem decode_cases (op : Word) : (∃ i, decode op = .known i ∧ encode i = op) ∨ decode op = .unknown op := by
  unfold decode
  split
  case h_1 => exact decode0_cases op
  case h_9 ht => exact decode8_cases ht
  case h_15 ht => exact decodeE_cases ht
  case h_16 => exact decodeF_cases (by apply topNibble_last <;> assumption)
  case h_6 ht | h_10 ht =>
    split
    · next hn => exact .inl ⟨_, rfl, formatXYN_of_fields ht hn⟩
    · exact .inr rfl
  case h_2 ht | h_3 ht | h_11 ht | h_12 ht => exact .inl ⟨_, rfl, formatA_of_fields ht⟩
  case h_14 ht => exact .inl ⟨_, rfl, formatXYN_of_fields ht rfl⟩
  all_goals exact .inl ⟨_, rfl, formatXI_of_fields ‹_› rfl⟩

theorem encode_of_decode {op : Word} {i : Instr} (h : decode op = .known i) : encode i = op := by
  rcases decode_cases op with ⟨j, hj, henc⟩ | hu
  · rw [h] at hj
    cases hj
    exact henc
  · rw [h] at hu
    cases hu

/-- Settles O2, along the branches of the decoder: a word is its fields. -/
theorem encodeOfDecodeIsIdentity : Obligations.EncodeOfDecodeIsIdentity := fun _ _ => encode_of_decode

/-! ### Unknown opcodes -/

/-- The sub-opcodes left when no arm of `decode8` takes the nibble (R76). -/
theorem subOpcode_last : ∀ n : Nibble,
    (n = 0x0#4 → False) → (n = 0x1#4 → False) → (n = 0x2#4 → False) → (n = 0x3#4 → False) → (n = 0x4#4 → False) →
    (n = 0x5#4 → False) → (n = 0x6#4 → False) → (n = 0x7#4 → False) → (n = 0xE#4 → False) →
    n = 0x8 ∨ n = 0x9 ∨ n = 0xA ∨ n = 0xB ∨ n = 0xC ∨ n = 0xD ∨ n = 0xF := by
  decide

theorem decode0_eq_unknown {op : Word} : decode0 op = .unknown op ↔ op ≠ 0x00E0 ∧ op ≠ 0x00EE := by
  unfold decode0
  split
  · next h => simp [h]
  · next h =>
    split
    · next h' => simp [h']
    · next h' => exact iff_of_true rfl ⟨h, h'⟩

theorem decode8_eq_unknown {op : Word} : decode8 op = .unknown op ↔
    fieldN op = 0x8 ∨ fieldN op = 0x9 ∨ fieldN op = 0xA ∨ fieldN op = 0xB ∨ fieldN op = 0xC ∨ fieldN op = 0xD ∨
      fieldN op = 0xF := by
  unfold decode8
  split
  case h_10 => exact iff_of_true rfl (subOpcode_last _ ‹_› ‹_› ‹_› ‹_› ‹_› ‹_› ‹_› ‹_› ‹_›)
  all_goals simp [*]

theorem decodeE_eq_unknown {op : Word} : decodeE op = .unknown op ↔ fieldNN op ≠ 0x9E ∧ fieldNN op ≠ 0xA1 := by
  unfold decodeE
  split
  case h_3 => exact iff_of_true rfl ⟨‹_›, ‹_›⟩
  all_goals simp [*]

theorem decodeF_eq_unknown {op : Word} : decodeF op = .unknown op ↔
    fieldNN op ≠ 0x07 ∧ fieldNN op ≠ 0x0A ∧ fieldNN op ≠ 0x15 ∧ fieldNN op ≠ 0x18 ∧ fieldNN op ≠ 0x1E ∧
      fieldNN op ≠ 0x29 ∧ fieldNN op ≠ 0x33 ∧ fieldNN op ≠ 0x55 ∧ fieldNN op ≠ 0x65 := by
  unfold decodeF
  split
  case h_10 => exact iff_of_true rfl ⟨‹_›, ‹_›, ‹_›, ‹_›, ‹_›, ‹_›, ‹_›, ‹_›, ‹_›⟩
  all_goals simp [*]

/-- The six classes of R76 over the fields of the opcode. -/
theorem decode_eq_unknown_iff {op : Word} : decode op = .unknown op ↔
    (fieldTop op = 0x0 ∧ decode0 op = .unknown op) ∨ (fieldTop op = 0x5 ∧ fieldN op ≠ 0) ∨
      (fieldTop op = 0x8 ∧ decode8 op = .unknown op) ∨ (fieldTop op = 0x9 ∧ fieldN op ≠ 0) ∨
      (fieldTop op = 0xE ∧ decodeE op = .unknown op) ∨ (fieldTop op = 0xF ∧ decodeF op = .unknown op) := by
  unfold decode
  split
  case h_16 =>
    have ht : fieldTop op = 0xF := by apply topNibble_last <;> assumption
    simp [ht]
  all_goals simp [*]

theorem fieldTop_eq_iff {op : Word} {t : BitVec 4} : fieldTop op = t ↔ op.toNat / 4096 = t.toNat := by
  rw [← BitVec.toNat_inj, fieldTop_toNat]

theorem fieldN_eq_iff {op : Word} {n : Nibble} : fieldN op = n ↔ op.toNat % 16 = n.toNat := by
  rw [← BitVec.toNat_inj, fieldN_toNat]

theorem fieldNN_eq_iff {op : Word} {nn : Byte} : fieldNN op = nn ↔ op.toNat % 256 = nn.toNat := by
  rw [← BitVec.toNat_inj, fieldNN_toNat]

/-- Settles O4: the classes over the fields, read as numbers. -/
theorem unknownOpcodesAreTheSixClasses : Obligations.UnknownOpcodesAreTheSixClasses := by
  intro op
  simp only [decode_eq_unknown_iff, decode0_eq_unknown, decode8_eq_unknown, decodeE_eq_unknown, decodeF_eq_unknown, ne_eq,
    fieldTop_eq_iff, fieldN_eq_iff, fieldNN_eq_iff, ← BitVec.toNat_inj (x := op)]
  rfl

/-! ### The opcode map -/

/-- The row of an instruction is in the map and selects the instruction's word: the lemmas of `Laws/PerInstr.lean` together. -/
theorem row_selects_encode (i : Instr) : Laws.RowSelects.Statement i := by
  open Laws.RowSelects in
  cases i
  exacts [cls, ret, jp _, call _, seImm _ _, sneImm _ _, seReg _ _, ldImm _ _, addImm _ _, ldReg _ _, orReg _ _, andReg _ _,
    xorReg _ _, addReg _ _, subReg _ _, shr _ _, subnReg _ _, shl _ _, sneReg _ _, ldI _, jpV0 _, rnd _ _, drw _ _ _, skp _,
    sknp _, ldVxDT _, ldVxK _, ldDTVx _, ldSTVx _, addI _, ldF _, ldB _, ldMemVx _, ldVxMem _]

/-- A known word is selected by the row of its instruction (R74). -/
theorem row_selects_of_decode {op : Word} {i : Instr} (h : decode op = .known i) :
    i.row ∈ opcodeMap ∧ i.row.selects op = true := by
  obtain ⟨hmem, hsel, -⟩ := row_selects_encode i
  rw [encode_of_decode h] at hsel
  exact ⟨hmem, hsel⟩

theorem OpcodeRow.selects_iff {r : OpcodeRow} {op : Word} : r.selects op = true ↔ op &&& r.mask = r.value := by
  simp [OpcodeRow.selects]

/-- Two rows whose values differ where both masks look share no opcode. -/
theorem not_both_select {r r' : OpcodeRow} (h : r.value &&& r'.mask ≠ r'.value &&& r.mask) (op : Word) :
    ¬ (r.selects op = true ∧ r'.selects op = true) := by
  rintro ⟨hr, hr'⟩
  rw [OpcodeRow.selects_iff] at hr hr'
  apply h
  rw [← hr, ← hr', BitVec.and_assoc, BitVec.and_assoc, BitVec.and_comm r.mask]

theorem opcodeMap_values_differ : opcodeMap.Pairwise (fun r r' => r.value &&& r'.mask ≠ r'.value &&& r.mask) := by
  decide

/-- No opcode is selected by two rows of the map (R74). -/
theorem opcodeMap_disjoint :
    opcodeMap.Pairwise (fun r r' => ∀ op : Word, ¬ (r.selects op = true ∧ r'.selects op = true)) :=
  opcodeMap_values_differ.imp not_both_select

/-- An opcode has at most one row. -/
theorem row_unique {op : Word} {r r' : OpcodeRow} (hr : r ∈ opcodeMap) (hr' : r' ∈ opcodeMap) (h : r.selects op = true)
    (h' : r'.selects op = true) : r = r' := by
  by_contra hne
  have : Std.Symm (fun r r' : OpcodeRow => ∀ op : Word, ¬ (r.selects op = true ∧ r'.selects op = true)) :=
    ⟨fun _ _ hdisj op hboth => hdisj op hboth.symm⟩
  exact opcodeMap_disjoint.forall hr hr' hne op ⟨h, h'⟩

/-- The mask of a row covers the bits the decoder reads: the top nibble, and what each family of R75 looks at below it. -/
theorem opcodeMap_masks : ∀ r ∈ opcodeMap, fieldTop r.mask = 15#4 ∧ (fieldTop r.value = 0x0 → r.mask = BitVec.allOnes 16) ∧
    (fieldTop r.value = 0x5 ∨ fieldTop r.value = 0x8 ∨ fieldTop r.value = 0x9 → fieldN r.mask = 15#4) ∧
    (fieldTop r.value = 0xE ∨ fieldTop r.value = 0xF → fieldNN r.mask = 255#8) := by
  decide

/-- The value of a row is itself a word the decoder knows. -/
theorem opcodeMap_values_known : ∀ r ∈ opcodeMap, decode r.value ≠ .unknown r.value := by
  decide

section
variable {r : OpcodeRow} {op : Word} (h : r.selects op = true)
include h

theorem fieldTop_of_selects (hm : fieldTop r.mask = 15#4) : fieldTop r.value = fieldTop op := by
  rw [← OpcodeRow.selects_iff.mp h, ← and_ones4 (fieldTop op), ← hm]
  exact BitVec.extractLsb'_and

theorem fieldN_of_selects (hm : fieldN r.mask = 15#4) : fieldN r.value = fieldN op := by
  rw [← OpcodeRow.selects_iff.mp h, ← and_ones4 (fieldN op), ← hm]
  exact BitVec.extractLsb'_and

theorem fieldNN_of_selects (hm : fieldNN r.mask = 255#8) : fieldNN r.value = fieldNN op := by
  rw [← OpcodeRow.selects_iff.mp h, ← and_ones8 (fieldNN op), ← hm]
  exact BitVec.extractLsb'_and

/-- An unknown opcode would make the value of its row unknown: the decoder sees no difference between the two. -/
theorem value_unknown_of_unknown (hr : r ∈ opcodeMap) (hop : decode op = .unknown op) : decode r.value = .unknown r.value := by
  obtain ⟨mTop, mAll, mN, mNN⟩ := opcodeMap_masks r hr
  have hTop := fieldTop_of_selects h mTop
  rw [decode_eq_unknown_iff] at hop ⊢
  rw [← hTop] at hop
  rcases hop with ⟨t, hu⟩ | ⟨t, hu⟩ | ⟨t, hu⟩ | ⟨t, hu⟩ | ⟨t, hu⟩ | ⟨t, hu⟩
  · have hval : r.value = op := by rw [← OpcodeRow.selects_iff.mp h, mAll t, BitVec.and_allOnes]
    exact .inl ⟨t, hval ▸ hu⟩
  · rw [← fieldN_of_selects h (mN (.inl t))] at hu
    exact .inr (.inl ⟨t, hu⟩)
  · rw [decode8_eq_unknown, ← fieldN_of_selects h (mN (.inr (.inl t))), ← decode8_eq_unknown] at hu
    simp [t, hu]
  · rw [← fieldN_of_selects h (mN (.inr (.inr t)))] at hu
    exact .inr (.inr (.inr (.inl ⟨t, hu⟩)))
  · rw [decodeE_eq_unknown, ← fieldNN_of_selects h (mNN (.inl t)), ← decodeE_eq_unknown] at hu
    simp [t, hu]
  · rw [decodeF_eq_unknown, ← fieldNN_of_selects h (mNN (.inr t)), ← decodeF_eq_unknown] at hu
    simp [t, hu]

end

/-- An opcode a row selects decodes to an instruction of that row (R74). -/
theorem decode_of_selects {op : Word} {r : OpcodeRow} (hr : r ∈ opcodeMap) (h : r.selects op = true) :
    ∃ i, decode op = .known i ∧ i.row = r := by
  rcases decode_cases op with ⟨i, hi, -⟩ | hu
  · obtain ⟨hmem, hsel⟩ := row_selects_of_decode hi
    exact ⟨i, hi, row_unique hmem hr hsel h⟩
  · exact absurd (value_unknown_of_unknown h hr hu) (opcodeMap_values_known r hr)

/-- An opcode no row selects is unknown (R74). -/
theorem decode_of_not_selects {op : Word} (h : ∀ r ∈ opcodeMap, r.selects op = false) : decode op = .unknown op := by
  rcases decode_cases op with ⟨i, hi, -⟩ | hu
  · obtain ⟨hmem, hsel⟩ := row_selects_of_decode hi
    simp [h _ hmem] at hsel
  · exact hu

/-- Settles O3: the rows' values tell the rows apart, and each known word is the encoding of an instruction of its row. -/
theorem decodeFollowsTheOpcodeMap : Obligations.DecodeFollowsTheOpcodeMap :=
  ⟨rfl, opcodeMap_disjoint, fun _ _ => decode_of_selects, fun _ => decode_of_not_selects⟩

end Sys2Proof
end

