-- ==== Sys2Proof/Proofs/Flow.lean ====
section
/-! Jumps, the call and the return (spec/40_flow.md R90 to R93): the target of each transfer, and the stack they share. -/

namespace Sys2Proof.Machine

variable {s : State}

/-! ### The targets -/

@[simp] theorem zext16_toNat (nnn : Addr) : (zext16 nnn).toNat = nnn.toNat :=
  BitVec.toNat_setWidth_of_le (by decide)

/-- 16 bits hold the largest sum, 4095 + 255 (decision D2). -/
@[simp] theorem offsetTarget_toNat (nnn : Addr) (v0 : Byte) : (offsetTarget nnn v0).toNat = nnn.toNat + v0.toNat := by
  rw [offsetTarget, BitVec.toNat_ofNat]
  omega

/-! ### Push and pop -/

/-- `2nnn` below a full stack pushes its own address (R92, decision D4). -/
theorem exec_call_of_lt (nnn : Addr) (hsp : s.sp.val < 16) :
    exec (.call nnn) s =
      .next { s with stack := s.stack.set s.sp.val s.pc hsp, sp := ⟨s.sp.val + 1, by omega⟩, pc := zext16 nnn } :=
  dif_pos hsp

/-- `00EE` on `k + 1` entries pops entry `k` (R90, decision D4). -/
theorem exec_ret_of_succ {k : Fin 16} (hsp : s.sp.val = k.val + 1) :
    exec .ret s = .next { s with sp := k.castSucc, pc := s.stack[k] + 2 } := by
  simp only [exec, execRet, hsp]
  rfl

/-- The entries after a push: the pushed word at its place, every other one kept (R29, R92). -/
theorem getElem_push (stack : Vector Word 16) {n : Nat} (hn : n < 16) (a : Word) (k : Fin 16) :
    (stack.set n a hn)[k] = if k.val = n then a else stack[k] := by
  simp only [Fin.getElem_fin, Vector.getElem_set, eq_comm]

/-! ### The obligations -/

/-- Settles O11, by the target as a number. -/
theorem jumpLoadsItsTarget : Obligations.JumpLoadsItsTarget :=
  fun _ nnn => ⟨_, rfl, zext16_toNat nnn, rfl⟩

/-- Settles O12: the sum of target and `V[0]` fits in 16 bits. -/
theorem jumpWithOffsetKeepsTheWholeSum : Obligations.JumpWithOffsetKeepsTheWholeSum :=
  fun _ nnn => ⟨_, rfl, offsetTarget_toNat nnn _, rfl⟩

/-- Settles O13, from the push. -/
theorem callPushesItsOwnAddress : Obligations.CallPushesItsOwnAddress :=
  fun s nnn hsp => ⟨_, exec_call_of_lt nnn hsp, rfl, zext16_toNat nnn, getElem_push s.stack hsp s.pc, rfl⟩

/-- Settles O14, from the pop. -/
theorem returnPopsPastTheCall : Obligations.ReturnPopsPastTheCall :=
  fun _ _ hsp => ⟨_, exec_ret_of_succ hsp, rfl, rfl, rfl⟩

/-- Settles O15: the return pops the entry the call has just pushed. -/
theorem callThenReturnComesBack : Obligations.CallThenReturnComesBack := by
  intro s nnn hsp
  have hpopped := getElem_push s.stack hsp s.pc ⟨s.sp.val, hsp⟩
  refine ⟨_, _, exec_call_of_lt nnn hsp, exec_ret_of_succ (k := ⟨s.sp.val, hsp⟩) rfl, ?_, rfl, fun k hk => ?_, rfl⟩
  · simp only [hpopped, if_true]
  · exact (getElem_push s.stack hsp s.pc k).trans (if_neg hk.ne)

end Sys2Proof.Machine
end

