-- ==== Sys2Proof/Proofs/Skip.lean ====
section
/-! Conditional skips (spec/41_skip.md R100 to R103): the skip by a condition, and the two comparisons of bytes. -/

namespace Sys2Proof.Machine

/-! ### The skip by a condition -/

/-- A skip by a test of `p` changes `PC` alone, by 4 where `p` holds and by 2 where it does not (R25). -/
theorem State.skipIf_of_iff (s : State) {c : Bool} {p : Prop} [Decidable p] (h : c = true ↔ p) :
    s.skipIf c = { s with pc := if p then s.pc + 4 else s.pc + 2 } :=
  congrArg s.setPc (if_congr h rfl rfl)

/-- The skip on equality (R100, R102). -/
theorem State.skipIf_beq (s : State) (a b : Byte) :
    s.skipIf (a == b) = { s with pc := if a = b then s.pc + 4 else s.pc + 2 } :=
  s.skipIf_of_iff beq_iff_eq

/-- The skip on inequality (R101, R103). -/
theorem State.skipIf_bne (s : State) (a b : Byte) :
    s.skipIf (a != b) = { s with pc := if a ≠ b then s.pc + 4 else s.pc + 2 } :=
  s.skipIf_of_iff bne_iff_ne

/-! ### The obligations -/

/-- Settles O18: the comparison of `V[x]` with the immediate. -/
theorem immediateSkips : Obligations.ImmediateSkips :=
  fun s x nn => ⟨congrArg Host.Outcome.next (s.skipIf_beq s.v[x] nn),
    congrArg Host.Outcome.next (s.skipIf_bne s.v[x] nn)⟩

/-- Settles O19: the comparison of `V[x]` with `V[y]`, also where these are one register. -/
theorem registerSkips : Obligations.RegisterSkips :=
  fun s x y => ⟨congrArg Host.Outcome.next (s.skipIf_beq s.v[x] s.v[y]),
    congrArg Host.Outcome.next (s.skipIf_bne s.v[x] s.v[y])⟩

end Sys2Proof.Machine
end

