-- ==== Sys2Proof/Proofs/Alu.lean ====
section
/-! Register load, arithmetic and logic (spec/42_alu.md R110 to R121): what a write of one register and a write of `VF` and
one register answer, and each result and flag as numbers. -/

namespace Sys2Proof.Machine

variable {s : State} {x : RegIx} {b : Byte}

/-! ### The two kinds of writers -/

@[simp] theorem State.reg_setReg_self (s : State) (x : RegIx) (b : Byte) : (s.setReg x b).reg x = b := by
  rw [State.reg_setReg, if_pos rfl]

@[simp] theorem State.reg_setFlagThenReg_self (s : State) (f : Bool) (x : RegIx) (b : Byte) :
    (s.setFlagThenReg f x b).reg x = b :=
  State.reg_setReg_self _ x b

/-- Outside the destination a flag writer leaves `VF` = 1 or 0 by the test of the flag, and the old values (R21, R22). -/
theorem State.reg_setFlagThenReg_of_iff (s : State) {r : RegIx} (hr : r ≠ x) {f : Bool} {q : Prop} [Decidable q]
    (hf : f = true ↔ q) (b : Byte) :
    (s.setFlagThenReg f x b).reg r = if r = 15 then (if q then 1 else 0) else s.reg r := by
  rw [State.reg_setFlagThenReg, if_neg hr.symm]
  exact if_congr Iff.rfl (if_congr hf rfl rfl) rfl

/-- A writer of one register: the result, of which `P` holds, in `V[x]`, no flag, nothing else but `PC`. -/
theorem exec_setReg_spec {i : Instr} {P : Byte → Prop} (h : exec i s = .next (s.setReg x b).advance) (hb : P b) :
    ∃ t, exec i s = .next t ∧ P t.v[x] ∧ (∀ r : RegIx, r ≠ x → t.v[r] = s.v[r]) ∧
      t = { s with v := t.v, pc := s.pc + 2 } := by
  have hx : P ((s.setReg x b).reg x) := by rwa [State.reg_setReg_self]
  exact ⟨_, h, hx, fun _ hr => s.reg_setReg_of_ne hr b, rfl⟩

/-- A flag writer: the result, of which `P` holds, in `V[x]`, and elsewhere `VF` = 1 exactly when `q` holds; for `x = 15`
the result stands (R22, decision D6). -/
theorem exec_setFlagThenReg_spec {i : Instr} {P : Byte → Prop} {f : Bool} {q : Prop} [Decidable q]
    (h : exec i s = .next (s.setFlagThenReg f x b).advance) (hf : f = true ↔ q) (hb : P b) :
    ∃ t, exec i s = .next t ∧ P t.v[x] ∧
      (∀ r : RegIx, r ≠ x → t.v[r] = if r = 15 then (if q then 1 else 0) else s.v[r]) ∧
      t = { s with v := t.v, pc := s.pc + 2 } := by
  have hx : P ((s.setFlagThenReg f x b).reg x) := by rwa [State.reg_setFlagThenReg_self]
  exact ⟨_, h, hx, fun _ hr => s.reg_setFlagThenReg_of_iff hr hf b, rfl⟩

/-! ### Results and flags as numbers -/

/-- The difference modulo 256, without and with a borrow (R117, R119). -/
theorem byte_sub_toNat (a b : Byte) :
    (a - b).toNat = if a.toNat ≥ b.toNat then a.toNat - b.toNat else a.toNat + 256 - b.toNat := by
  rw [BitVec.toNat_sub]
  split <;> omega

theorem byte_shr_one_toNat (a : Byte) : (a >>> 1).toNat = a.toNat / 2 := by
  rw [BitVec.toNat_ushiftRight, Nat.shiftRight_one]

theorem byte_shl_one_toNat (a : Byte) : (a <<< 1).toNat = a.toNat * 2 % 256 := by
  rw [BitVec.toNat_shiftLeft, Nat.shiftLeft_eq]

theorem carryFlag_iff {a b : Byte} : carryFlag a b = true ↔ a.toNat + b.toNat > 255 := decide_eq_true_iff

theorem noBorrowFlag_iff {a b : Byte} : noBorrowFlag a b = true ↔ a.toNat ≥ b.toNat := decide_eq_true_iff

/-- Bit 0 is the parity (R118). -/
theorem lowBitFlag_iff {a : Byte} : lowBitFlag a = true ↔ a.toNat % 2 = 1 := by
  rw [lowBitFlag, BitVec.getLsbD, Nat.testBit_zero, decide_eq_true_iff]

/-- Bit 7 is set from 128 on (R120). -/
theorem highBitFlag_iff {a : Byte} : highBitFlag a = true ↔ a.toNat ≥ 128 := by
  rw [highBitFlag, ← BitVec.msb_eq_getLsbD_last, BitVec.msb_eq_decide, decide_eq_true_iff]

/-! ### The obligations -/

/-- Settles O21: two writers of one register. -/
theorem loadAndAddImmediate : Obligations.LoadAndAddImmediate :=
  fun s x nn => ⟨exec_setReg_spec (P := (· = nn)) rfl rfl,
    exec_setReg_spec (P := (·.toNat = _)) rfl (BitVec.toNat_add s.v[x] nn)⟩

/-- Settles O22: four writers of one register, the bits of each result. -/
theorem copyAndLogic : Obligations.CopyAndLogic :=
  fun s x y => ⟨exec_setReg_spec (P := (· = s.v[y])) rfl rfl,
    exec_setReg_spec (P := fun c => ∀ k < 8, c.getLsbD k = (s.v[x].getLsbD k || s.v[y].getLsbD k)) rfl
      fun _ _ => BitVec.getLsbD_or,
    exec_setReg_spec (P := fun c => ∀ k < 8, c.getLsbD k = (s.v[x].getLsbD k && s.v[y].getLsbD k)) rfl
      fun _ _ => BitVec.getLsbD_and,
    exec_setReg_spec (P := fun c => ∀ k < 8, c.getLsbD k = (s.v[x].getLsbD k ^^ s.v[y].getLsbD k)) rfl
      fun _ _ => BitVec.getLsbD_xor⟩

/-- Settles O23: a flag writer with the sum and the carry. -/
theorem addDeliversCarry : Obligations.AddDeliversCarry :=
  fun s x y => exec_setFlagThenReg_spec (P := (·.toNat = _)) rfl carryFlag_iff (BitVec.toNat_add s.v[x] s.v[y])

/-- Settles O24: two flag writers with the difference and no borrow, the operands in either order. -/
theorem subtractDeliversNotBorrow : Obligations.SubtractDeliversNotBorrow :=
  fun s x y => ⟨exec_setFlagThenReg_spec (P := (·.toNat = _)) rfl noBorrowFlag_iff (byte_sub_toNat s.v[x] s.v[y]),
    exec_setFlagThenReg_spec (P := (·.toNat = _)) rfl noBorrowFlag_iff (byte_sub_toNat s.v[y] s.v[x])⟩

/-- Settles O25: two flag writers with half and double, and the bit shifted out. -/
theorem shiftsDeliverTheBitShiftedOut : Obligations.ShiftsDeliverTheBitShiftedOut :=
  fun s x _ => ⟨exec_setFlagThenReg_spec (P := (·.toNat = _)) rfl lowBitFlag_iff (byte_shr_one_toNat s.v[x]),
    exec_setFlagThenReg_spec (P := (·.toNat = _)) rfl highBitFlag_iff (byte_shl_one_toNat s.v[x])⟩

/-- Settles O26: the masked byte is written by `State.randomAnd`, whatever the byte; the draw consumed is no register. -/
theorem randomByteIsMasked : Obligations.RandomByteIsMasked := by
  intro s x nn
  have hself (b : Byte) : (s.randomAnd b x nn).v[x] = b &&& nn := s.reg_setReg_self x (b &&& nn)
  have hother (b : Byte) (r : RegIx) (hr : r ≠ x) : (s.randomAnd b x nn).v[r] = s.v[r] :=
    s.reg_setReg_of_ne hr (b &&& nn)
  exact ⟨⟨_, rfl, hself _, hother _, rfl⟩, rfl, fun b => ⟨hself b, hother b, rfl⟩⟩

end Sys2Proof.Machine
end

