-- ==== Sys2Proof/Proofs/IndexMemory.lean ====
section
/-! Address register and memory (spec/43_index_memory.md R130 to R135): the values loaded into `I`, the decimal digits
of a byte, and the bytes and registers after the stores and loads at `I`. -/

namespace Sys2Proof.Machine

/-! ### The values loaded into `I` -/

/-- The sum reduced modulo 4096 fits in 16 bits (R131). -/
@[simp] theorem indexSum_toNat (i : Word) (b : Byte) : (indexSum i b).toNat = (i.toNat + b.toNat) % 4096 := by
  rw [indexSum, BitVec.toNat_ofNat]
  omega

/-- 16 bits hold the largest glyph address, 80 + 5 * 255 (decision D25). -/
@[simp] theorem glyphAddress_toNat (b : Byte) : (glyphAddress b).toNat = 0x050 + 5 * b.toNat := by
  rw [glyphAddress, BitVec.toNat_ofNat]
  omega

@[simp] theorem indexAfterLoad_toNat (i : Word) (x : RegIx) :
    (indexAfterLoad i x).toNat = (i.toNat + x.val + 1) % 65536 :=
  BitVec.toNat_ofNat _ 16

/-- A writer of `I`: the value, which is the number `n`, in `I`, and nothing else but `PC` changes (R23). -/
theorem exec_setI_spec {i : Instr} {s : State} {a : Word} {n : Nat} (h : exec i s = .next (s.setI a).advance)
    (ha : a.toNat = n) :
    ∃ t, exec i s = .next t ∧ t.i.toNat = n ∧ t = { s with i := t.i, pc := s.pc + 2 } :=
  ⟨_, h, ha, rfl⟩

/-! ### The decimal digits -/

@[simp] theorem bcdHundreds_toNat (b : Byte) : (bcdHundreds b).toNat = b.toNat / 100 := by
  rw [bcdHundreds, BitVec.toNat_ofNat]
  omega

@[simp] theorem bcdTens_toNat (b : Byte) : (bcdTens b).toNat = b.toNat / 10 % 10 := by
  rw [bcdTens, BitVec.toNat_ofNat]
  omega

@[simp] theorem bcdOnes_toNat (b : Byte) : (bcdOnes b).toNat = b.toNat % 10 := by
  rw [bcdOnes, BitVec.toNat_ofNat]
  omega

/-! ### The three stores of `Fx33` -/

/-- An effective address is already reduced (R51). -/
theorem State.ea_mod (s : State) (k : Nat) : s.ea k % 4096 = s.ea k := s.cellOf_ea k

/-- Offsets below 4096 name one cell exactly when they are equal (R51). -/
theorem State.ea_eq_ea_iff (s : State) {j k : Nat} (hj : j < 4096) (hk : k < 4096) : s.ea j = s.ea k ↔ j = k :=
  ⟨s.ea_inj hj hk, congrArg s.ea⟩

theorem State.read_storeBcd_hundreds (s : State) (b : Byte) :
    ((s.storeBcd b).mem.read (s.ea 0)).toNat = b.toNat / 100 := by
  rw [State.read_storeBcd]
  simp [State.ea_mod, State.ea_eq_ea_iff]

theorem State.read_storeBcd_tens (s : State) (b : Byte) :
    ((s.storeBcd b).mem.read (s.ea 1)).toNat = b.toNat / 10 % 10 := by
  rw [State.read_storeBcd]
  simp [State.ea_mod, State.ea_eq_ea_iff]

theorem State.read_storeBcd_ones (s : State) (b : Byte) :
    ((s.storeBcd b).mem.read (s.ea 2)).toNat = b.toNat % 10 := by
  rw [State.read_storeBcd, State.ea_mod, if_pos rfl, bcdOnes_toNat]

/-- What the stores of `Fx33` leave outside their three cells: every other byte (R133). -/
theorem State.read_storeBcd_outside (s : State) (b : Byte) {a : Nat} (h : ∀ k < 3, s.ea k ≠ a % 4096) :
    (s.storeBcd b).mem.read a = s.mem.read a := by
  rw [State.read_storeBcd, if_neg (h 2 (by decide)).symm, if_neg (h 1 (by decide)).symm, if_neg (h 0 (by decide)).symm]

/-! ### The obligations -/

/-- Settles O28: two writers of `I`, with the immediate and with the reduced sum. -/
theorem loadAndAddIndex : Obligations.LoadAndAddIndex :=
  ⟨fun _ nnn => exec_setI_spec rfl (zext16_toNat nnn), fun s x => exec_setI_spec rfl (indexSum_toNat s.i s.v[x])⟩

/-- Settles O29: a writer of `I` with the address of the glyph, which 16 bits hold. -/
theorem glyphAddressIsNotMasked : Obligations.GlyphAddressIsNotMasked :=
  fun s x => exec_setI_spec rfl (glyphAddress_toNat s.v[x])

/-- Settles O30: the byte read in each of the three cells is a digit, and outside them the old byte. -/
theorem bcdStoresThreeDigits : Obligations.BcdStoresThreeDigits :=
  fun s x => ⟨_, rfl, s.read_storeBcd_hundreds s.v[x], s.read_storeBcd_tens s.v[x], s.read_storeBcd_ones s.v[x],
    fun _ => s.read_storeBcd_outside s.v[x], rfl⟩

/-- Settles O31: the bytes inside and outside the range of the block store. -/
theorem blockStoreWritesTheRange : Obligations.BlockStoreWritesTheRange :=
  fun s x => ⟨_, rfl, fun _ hk => s.read_storeRegs_inside hk, s.read_storeRegs_outside x, rfl⟩

/-- Settles O32: every register after the block load, and the advanced `I` as a number. -/
theorem blockLoadReadsTheRange : Obligations.BlockLoadReadsTheRange :=
  fun s x => ⟨_, rfl, s.reg_loadRegs x, indexAfterLoad_toNat s.i x, rfl⟩

/-- Settles O33: the store keeps `I` (decision D23), so the load reads the very cells the store wrote. -/
theorem storeThenLoadRestoresRegisters : Obligations.StoreThenLoadRestoresRegisters := by
  intro s t x w hstore
  obtain ⟨t', hexec, hstored, -, hstoreFrame⟩ := blockStoreWritesTheRange s x
  obtain rfl := Host.Outcome.next.inj (hexec.symm.trans hstore)
  have hi : t'.i = s.i := by rw [hstoreFrame]
  obtain ⟨u, hload, hloaded, -, hloadFrame⟩ := blockLoadReadsTheRange { t' with v := w } x
  refine ⟨u, hload, fun k => (hloaded k).trans ?_, by rw [hloadFrame]⟩
  split
  next hk => exact hi ▸ hstored k hk
  next => rfl

end Sys2Proof.Machine
end

