-- ==== Sys2Proof/Proofs/Display.lean ====
section
/-! The display (spec/44_display.md R140, R141): the cells and the collision of a drawn sprite by its closed form, and the
same draw repeated. -/

namespace Sys2Proof.Machine

/-! ### The sprite by its closed form -/

/-- A sprite of at most 32 rows toggles exactly the cells of its closed form, since no two of its pixels share a cell (R141 (e)). -/
theorem State.cellAt_drawSprite (s : State) (x0 y0 : Byte) {n : Nat} (hn : n ≤ 32) (p : Display × Bool) (r : Fin 32)
    (c : Fin 64) : cellAt (s.drawSprite x0 y0 n p).1 r c = (cellAt p.1 r c ^^ s.spriteLit x0 y0 n r c) := by
  rw [State.drawSprite_eq_plotAll, cellAt_plotAll _ (s.nodup_spritePoints x0 y0 hn)]
  simp only [← s.spriteLit_iff x0 y0 hn]
  cases s.spriteLit x0 y0 n r c <;> simp

/-- A sprite of at most 32 rows collides exactly if a cell of its closed form was 1 before it (R141). -/
theorem State.drawSprite_collision_iff (s : State) (x0 y0 : Byte) {n : Nat} (hn : n ≤ 32) (d : Display) :
    (s.drawSprite x0 y0 n (d, false)).2 = true ↔
      ∃ (r : Fin 32) (c : Fin 64), cellAt d r c = true ∧ s.spriteLit x0 y0 n r c = true := by
  rw [State.drawSprite_eq_plotAll, collision_plotAll _ (s.nodup_spritePoints x0 y0 hn), Bool.false_or, List.any_eq_true,
    Prod.exists]
  simp only [s.spriteLit_iff x0 y0 hn, and_comm]

/-- `VF` is delivered as 0 or 1 (R21). -/
theorem State.reg_setFlag_eq_zero_or_one (s : State) (f : Bool) : (s.setFlag f).reg 15 = 0 ∨ (s.setFlag f).reg 15 = 1 := by
  rw [State.setFlag, State.reg_setReg_self]
  cases f <;> decide

theorem State.reg_setFlag_eq_one_iff (s : State) {f : Bool} : (s.setFlag f).reg 15 = 1 ↔ f = true := by
  rw [State.setFlag, State.reg_setReg_self]
  cases f <;> decide

/-! ### The obligations -/

/-- Settles O38, by the cells of the cleared display. -/
theorem clearDisplayClearsEveryCell : Obligations.ClearDisplayClearsEveryCell :=
  fun _ => ⟨_, rfl, cellAt_clearDisplay, rfl⟩

/-- Settles O39: the sprite's cells and collision by its closed form, and the write of `VF` after it (decision D14). -/
theorem drawTogglesLitCells : Obligations.DrawTogglesLitCells := by
  intro s x y n
  have hn : n.toNat ≤ 32 := by omega
  exact ⟨_, rfl, s.cellAt_drawSprite s.v[x] s.v[y] hn (s.fb, false), State.reg_setFlag_eq_zero_or_one _ _,
    (State.reg_setFlag_eq_one_iff _).trans (s.drawSprite_collision_iff s.v[x] s.v[y] hn s.fb),
    fun _ hr => State.reg_setReg_of_ne _ hr _, rfl⟩

/-- Settles O40: the first draw keeps `I` and memory, so both draws toggle the same cells, and a lit cell is 1 before the
second exactly if it was 0 before the first. -/
theorem drawTwiceRestoresTheDisplay : Obligations.DrawTwiceRestoresTheDisplay := by
  intro s t x y n w hdraw hx hy
  obtain ⟨t', hexec, hcell, -, -, -, hframe⟩ := drawTogglesLitCells s x y n
  obtain rfl := Host.Outcome.next.inj (hexec.symm.trans hdraw)
  obtain ⟨u, hsecond, hcell', -, hvf', -, -⟩ := drawTogglesLitCells { t' with v := w } x y n
  have hlit : State.spriteLit { t' with v := w } w[x] w[y] n.toNat = s.spriteLit s.v[x] s.v[y] n.toNat := by
    rw [hx, hy, hframe]
    rfl
  simp only [hlit, hcell] at hcell' hvf'
  have hrestored (r : Fin 32) (c : Fin 64) : u.fb[r][c] = s.fb[r][c] := by
    rw [hcell', Bool.xor_assoc, Bool.xor_self, Bool.xor_false]
  refine ⟨u, hsecond, display_ext hrestored, hvf'.trans ?_⟩
  refine exists_congr fun r => exists_congr fun c => and_congr_left fun hrc => ?_
  rw [hrc, Bool.xor_true, Bool.not_eq_true']

/-- A display with every cell 1. -/
def litDisplay : Display := Vector.replicate 32 (Vector.replicate 64 true)

@[simp] theorem cellAt_litDisplay (r : Fin 32) (c : Fin 64) : cellAt litDisplay r c = true := by
  simp [cellAt, litDisplay]

/-- Refutes O41: on a display with every cell 1, the first row of glyph 0 clears its cells and then sets them again, and
the second draw meets no cell that is 1. -/
theorem not_secondDrawAlwaysCollides : ¬ Obligations.SecondDrawAlwaysCollides := by
  intro h
  let s : State := { State.reset with i := 0x0050, fb := litDisplay }
  obtain ⟨t, hfirst, -, -, -, hkept, -⟩ := drawTogglesLitCells s 0 1 1
  have h0 : t.v[(0 : RegIx)] = s.v[(0 : RegIx)] := hkept 0 (by decide)
  have h1 : t.v[(1 : RegIx)] = s.v[(1 : RegIx)] := hkept 1 (by decide)
  obtain ⟨u, hsecond, -, hvf⟩ := drawTwiceRestoresTheDisplay s t 0 1 1 t.v hfirst h0 h1
  have hone : u.v[(15 : RegIx)] = 1 := h s t u 0 1 1 hfirst h0 h1 hsecond ⟨0, by decide, by decide⟩
  obtain ⟨r, c, hcell, -⟩ := hvf.mp hone
  exact Bool.noConfusion ((cellAt_litDisplay r c).symm.trans hcell)

end Sys2Proof.Machine
end

