-- ==== Sys2Proof/Proofs/TimerKeypad.lean ====
section
/-! Timers and keypad (spec/45_timer_keypad.md R150 to R155): the moves of the timers, the skips by a key, and the wait for
a key that stalls, delivers and is ended by `setKeys`. -/

namespace Sys2Proof.Machine

variable {s : State} {x : RegIx} {k : Fin 16}

/-! ### The skips by a key -/

/-- `Ex9E` on a register that names key `k` skips if the key is down (R153). -/
theorem exec_skp_of_key (hx : (s.reg x).toNat = k.val) : exec (.skp x) s = .next (s.skipIf (s.keyDown k)) := by
  simp only [exec, execSkp, keyIndex_eq_some.mpr hx]

/-- `ExA1` on a register that names key `k` skips if the key is up (R154). -/
theorem exec_sknp_of_key (hx : (s.reg x).toNat = k.val) : exec (.sknp x) s = .next (s.skipIf (!s.keyDown k)) := by
  simp only [exec, execSknp, keyIndex_eq_some.mpr hx]

/-- The skip by a negated test swaps the two advances (R25). -/
theorem State.skipIf_not (s : State) (c : Bool) :
    s.skipIf (!c) = { s with pc := if c = true then s.pc + 2 else s.pc + 4 } := by
  cases c <;> rfl

/-! ### The wait for a key -/

/-- 8 bits hold every key index (R155). -/
@[simp] theorem keyByte_toNat (k : Fin 16) : (keyByte k).toNat = k.val := by
  rw [keyByte, BitVec.toNat_ofNat]
  omega

/-- `Fx0A` with every key up changes nothing (R155). -/
theorem exec_ldVxK_of_none_down (x : RegIx) (hup : ∀ j, s.keyDown j = false) : exec (.ldVxK x) s = .next s := by
  simp only [exec, execLdVxK, State.lowestKey_eq_none.mpr hup]

/-- `Fx0A` delivers the least key that is down (R155, decision D11). -/
theorem exec_ldVxK_of_least_down (x : RegIx) (hk : s.keyDown k = true) (hleast : ∀ j < k, s.keyDown j = false) :
    exec (.ldVxK x) s = .next (s.setReg x (keyByte k)).advance := by
  simp only [exec, execLdVxK, State.lowestKey_eq_some.mpr ⟨hk, hleast⟩]

/-- A state that a step leaves as it is stays through any number of steps. -/
theorem run_of_step_self {M : Host.Core} {s : M.State} (h : M.step s = .next s) (n : Nat) : M.run n s = .next s := by
  induction n with
  | zero => rfl
  | succ n ih => simp only [Host.Core.run, h, ih]

/-- The latch after `setKeys` with key `k` alone (R175). -/
theorem State.keyDown_setKeys_single (s : State) (k j : Fin 16) :
    (s.setKeys (Vector.ofFn (fun i : Fin 16 => i == k))).keyDown j = (j == k) :=
  Vector.getElem_ofFn j.isLt

/-! ### The obligations -/

/-- Settles O20: both skips test the key that `V[x]` names. -/
theorem keySkips : Obligations.KeySkips := by
  intro s x k hx
  exact ⟨(exec_skp_of_key hx).trans (congrArg _ (s.skipIf_of_iff Iff.rfl)),
    (exec_sknp_of_key hx).trans (congrArg _ (s.skipIf_not (s.keyDown k)))⟩

/-- Settles O44: a writer of one register, and two moves that are the state as written. -/
theorem timerMoves : Obligations.TimerMoves :=
  fun s _ => ⟨exec_setReg_spec (P := (· = s.dt)) rfl rfl, rfl, rfl⟩

/-- Settles O50: with a least key down `Fx0A` is a writer of one register. -/
theorem waitForKeyStallsOrDelivers : Obligations.WaitForKeyStallsOrDelivers :=
  ⟨fun _ x hup => exec_ldVxK_of_none_down x hup,
    fun _ x k hk hleast =>
      exec_setReg_spec (P := (·.toNat = k.val)) (exec_ldVxK_of_least_down x hk hleast) (keyByte_toNat k)⟩

/-- Settles O51: the stalled step is a fixed point, and `setKeys` leaves the fetched instruction and makes `k` the least
key down. -/
theorem waitForKeyEndsBySetKeys : Obligations.WaitForKeyEndsBySetKeys := by
  intro s x n k hhalt hdecode hup
  have hstall : step s = .next s := (step_known hhalt hdecode).trans (exec_ldVxK_of_none_down x hup)
  let s' := s.setKeys (Vector.ofFn (fun j : Fin 16 => j == k))
  have hk : s'.keyDown k = true := (s.keyDown_setKeys_single k k).trans (beq_self_eq_true k)
  have hleast (j : Fin 16) (hj : j < k) : s'.keyDown j = false :=
    (s.keyDown_setKeys_single k j).trans (beq_eq_false_iff_ne.mpr hj.ne)
  obtain ⟨u, hexec, hvalue, -, hframe⟩ := waitForKeyStallsOrDelivers.2 s' x k hk hleast
  have hstep : step s' = .next u := (step_known (s := s') hhalt hdecode).trans hexec
  have hpc : u.pc = s.pc + 2 := by rw [hframe]; rfl
  exact ⟨run_of_step_self hstall n, u, hstep, hvalue, hpc⟩

end Sys2Proof.Machine
end

