-- ==== Sys2Proof/Proofs/Exceptions.lean ====
section
/-! Errors and what holds the machine (spec/60_exceptions.md R160 to R171): what a step reports, the three fatal errors, and
the sessions that only a new boot (R200) moves on. -/

namespace Sys2Proof.Machine

variable {s t u : State} {h : Session} {c : Command} {cs : List Command}

/-! ### What a step reports -/

/-- A halted machine reports its `FAULT` (R171). -/
theorem State.report_of_halted (hs : s.halt = true) : s.report = .fatal s.fault := by
  simp only [State.report, hs, if_true]

/-- An unknown opcode is reported with its `PC` (R161). -/
theorem State.report_of_unknown {op : Word} (hs : s.halt = false) (hd : decode s.fetch = .unknown op) :
    s.report = .decodeError op s.pc := by
  simp [State.report, hs, hd]

/-- A known opcode reports what its instruction raised, else `Ok` (R166, R170). -/
theorem State.report_of_known {i : Instr} (hs : s.halt = false) (hd : decode s.fetch = .known i) (hexec : exec i s = .next t) :
    s.report = if t.halt then .fatal t.fault else .ok := by
  have hstepped : s.stepped = t := State.stepped_of_step ((step_known hs hd).trans hexec)
  simp [State.report, hs, hd, hstepped]

/-- The host's `step` puts the step's next state in place of the core (R170). -/
theorem Session.perform_step_of_step (ht : step h.core = .next t) :
    h.perform .step = (.step h.core.report, ⟨t, .running⟩) := by
  rw [Session.perform, State.stepped_of_step ht]

/-- Settles O7: the three branches of `step`, the report of each, and the host's command. -/
theorem stepRunsTheDecodedInstruction : Obligations.StepRunsTheDecodedInstruction :=
  ⟨fun _ =>
    ⟨fun hs => ⟨step_halted hs, State.report_of_halted hs⟩, fun hs =>
      ⟨fun _ hd => ⟨step_unknown hs hd, State.report_of_unknown hs hd⟩,
        fun _ hd => ⟨step_known hs hd, fun _ => State.report_of_known hs hd⟩⟩⟩,
    fun _ _ => Session.perform_step_of_step⟩

/-! ### The fatal errors -/

/-- A call on a full stack (R162, decision D5). -/
theorem exec_call_of_full (nnn : Addr) (hsp : s.sp.val = 16) :
    exec (.call nnn) s = .next (s.raiseFatal FaultCode.stackOverflow) :=
  dif_neg (by omega)

/-- A return on an empty stack (R163). -/
theorem exec_ret_of_empty (hsp : s.sp.val = 0) : exec .ret s = .next (s.raiseFatal FaultCode.stackUnderflow) :=
  dif_pos hsp

/-- `Ex9E` on a register that names no key (R165, decision D10). -/
theorem exec_skp_of_no_key {x : RegIx} (hx : 15 < (s.reg x).toNat) :
    exec (.skp x) s = .next (s.raiseFatal FaultCode.invalidKeyIndex) := by
  simp only [exec, execSkp, keyIndex_eq_none.mpr hx]

/-- `ExA1` on a register that names no key (R165, decision D10). -/
theorem exec_sknp_of_no_key {x : RegIx} (hx : 15 < (s.reg x).toNat) :
    exec (.sknp x) s = .next (s.raiseFatal FaultCode.invalidKeyIndex) := by
  simp only [exec, execSknp, keyIndex_eq_none.mpr hx]

/-- Settles O16: each of the four answers `State.raiseFatal` with its code. -/
theorem fatalErrorsLatchHaltAndFaultOnly : Obligations.FatalErrorsLatchHaltAndFaultOnly :=
  ⟨fun _ nnn hsp => exec_call_of_full nnn hsp, fun _ hsp => exec_ret_of_empty hsp,
    fun _ _ hx => ⟨exec_skp_of_no_key hx, exec_sknp_of_no_key hx⟩⟩

/-- Settles O17: an instruction keeps the error latch or raises one of the fatal errors. -/
theorem onlyTheFatalErrorsHalt : Obligations.OnlyTheFatalErrorsHalt := by
  intro i s t hs hexec ht
  rcases exec_latch_cases hexec with ⟨hhalt, -⟩ | ⟨hi, hsp, rfl⟩ | ⟨hi, hsp, rfl⟩ | ⟨x, hi, hx, rfl⟩
  · exact Bool.noConfusion (ht.symm.trans (hhalt.trans hs))
  · exact ⟨rfl, .inl ⟨hi, hsp, rfl⟩⟩
  · exact ⟨rfl, .inr (.inl ⟨hi, hsp, rfl⟩)⟩
  · exact ⟨rfl, .inr (.inr ⟨x, hi, hx, rfl⟩)⟩

/-! ### The same state but for the ports -/

/-- `u` is `s` except in the fields that the ports `tick`, `setKeys` and `consumeDirtyFlag` write. -/
def State.EqOffPorts (s u : State) : Prop := u = { s with dt := u.dt, st := u.st, key := u.key, dirty := u.dirty }

theorem State.EqOffPorts.refl (s : State) : s.EqOffPorts s := rfl

theorem State.EqOffPorts.trans (hst : s.EqOffPorts t) (htu : t.EqOffPorts u) : s.EqOffPorts u := by
  rw [State.EqOffPorts, htu, hst]

theorem State.EqOffPorts.halt_eq (hsu : s.EqOffPorts u) : u.halt = s.halt := by rw [hsu]

theorem State.EqOffPorts.fetch_eq (hsu : s.EqOffPorts u) : u.fetch = s.fetch := by
  rw [hsu]
  rfl

/-! ### The sessions that only a new boot moves on -/

/-- The core is halted, or it stands on an unknown opcode and no `load` can replace that (R161, R171, R204). -/
def Session.Stuck (h : Session) : Prop :=
  h.core.halt = true ∨ (h.phase = .running ∧ ∃ op, decode h.core.fetch = .unknown op)

theorem Session.Stuck.step_eq (hs : h.Stuck) : step h.core = .next h.core := by
  cases hhalt : h.core.halt with
  | true => exact step_halted hhalt
  | false =>
    rcases hs with hhalted | ⟨-, op, hd⟩
    · exact Bool.noConfusion (hhalted.symm.trans hhalt)
    · exact step_unknown hhalt hd

/-- A stuck session refuses every image: it is halted, or past its `load` (decision D17). -/
theorem Session.Stuck.performLoad_eq (hs : h.Stuck) (image : List Byte) : h.performLoad image = (.load .refused, h) := by
  rw [Session.performLoad_eq, if_neg]
  rintro ⟨hphase, -, hhalt⟩
  rcases hs with hhalted | ⟨hrunning, -⟩
  · exact Bool.noConfusion (hhalted.symm.trans hhalt)
  · exact Phase.noConfusion (hrunning.symm.trans hphase)

/-- Only a new boot ends the phase `running` (R202, R204). -/
theorem Session.phase_perform_of_running (hrunning : h.phase = .running) (hc : c.notInitialize = true) :
    (h.perform c).2.phase = .running := by
  cases c with
  | initCore font => exact Bool.noConfusion hc
  | load image =>
    rw [Session.perform, Session.performLoad_eq]
    split
    · rfl
    · exact hrunning
  | step => rfl
  | _ => exact hrunning

/-- On a stuck session a command other than a new boot writes through the ports alone. -/
theorem Session.Stuck.perform_eqOffPorts (hs : h.Stuck) (hc : c.notInitialize = true) :
    h.core.EqOffPorts (h.perform c).2.core := by
  cases c with
  | initCore font => exact Bool.noConfusion hc
  | load image =>
    rw [Session.perform, hs.performLoad_eq]
    exact .refl h.core
  | step =>
    rw [Session.perform_step_of_step hs.step_eq]
    exact .refl h.core
  | _ => rfl

theorem Session.Stuck.perform (hs : h.Stuck) (hc : c.notInitialize = true) : (h.perform c).2.Stuck := by
  have hcore := hs.perform_eqOffPorts hc
  rcases hs with hhalted | ⟨hrunning, op, hd⟩
  · exact .inl (hcore.halt_eq.trans hhalted)
  · exact .inr ⟨Session.phase_perform_of_running hrunning hc, op, hcore.fetch_eq ▸ hd⟩

/-- After any commands without a new boot a stuck session is stuck in the same state but for the ports. -/
theorem Session.Stuck.run (hs : h.Stuck) (hcs : ∀ c ∈ cs, c.notInitialize = true) :
    h.core.EqOffPorts (h.run cs).core ∧ (h.run cs).Stuck :=
  Session.run_keeps (P := fun k => h.core.EqOffPorts k.core ∧ k.Stuck)
    (fun c hc _ ⟨hcore, hk⟩ => ⟨hcore.trans (hk.perform_eqOffPorts (hcs c hc)), hk.perform (hcs c hc)⟩) ⟨.refl h.core, hs⟩

/-- Settles O9: the session is stuck, and the report reads no port. -/
theorem unknownOpcodeHoldsUntilInitialize : Obligations.UnknownOpcodeHoldsUntilInitialize := by
  intro h op cs hrunning hhalt hd hcs u
  have hstuck : h.Stuck := .inr ⟨hrunning, op, hd⟩
  have hu : h.core.EqOffPorts u := (hstuck.run hcs).1
  rw [hu]
  exact ⟨rfl, rfl, rfl, rfl, rfl, rfl, rfl, hhalt, rfl, State.report_of_unknown hhalt hd⟩

/-- Settles O10: the session is stuck, and it is the halted core that refuses the image. -/
theorem haltedUntilInitialize : Obligations.HaltedUntilInitialize := by
  intro h cs hhalt hcs u
  have hstuck : h.Stuck := .inl hhalt
  obtain ⟨hcore, hstays⟩ := hstuck.run hcs
  have hu : h.core.EqOffPorts u := hcore
  have hload (image : List Byte) : ((h.run cs).perform (.load image)).1 = .load .refused :=
    congrArg Prod.fst (hstays.performLoad_eq image)
  rw [hu]
  exact ⟨hhalt, rfl, rfl, rfl, rfl, rfl, rfl, rfl, rfl, State.report_of_halted hhalt, hload⟩

end Sys2Proof.Machine
end

