-- ==== Sys2Proof/Proofs/Ports.lean ====
section
/-! The host's ports (spec/60_exceptions.md R173 to R177): the timers under `tick`, the level SOUND, the key latch, and the
display. -/

namespace Sys2Proof.Machine

/-! ### The timers -/

@[simp] theorem State.tick_dt_toNat (s : State) : s.tick.2.dt.toNat = s.dt.toNat - 1 := countDown_toNat s.dt

@[simp] theorem State.tick_st_toNat (s : State) : s.tick.2.st.toNat = s.st.toNat - 1 := countDown_toNat s.st

theorem State.tick_audible_iff (s : State) : s.tick.1 = true ↔ 0 < s.st.toNat := decide_eq_true_iff

/-- Settles O45: one countdown is the truncated predecessor, and `tick` writes the two counters alone. -/
theorem tickDecrementsEachCounter : Obligations.TickDecrementsEachCounter := by
  intro s
  refine ⟨rfl, ?_, ?_, rfl⟩
  · rw [State.tick_dt_toNat]
    split <;> omega
  · rw [State.tick_st_toNat]
    split <;> omega

theorem State.ticks_dt_toNat (s : State) (n : Nat) : (s.ticks n).dt.toNat = s.dt.toNat - n := by
  induction n generalizing s with
  | zero => rfl
  | succ n ih =>
    rw [State.ticks, ih, State.tick_dt_toNat]
    omega

theorem State.ticks_st_toNat (s : State) (n : Nat) : (s.ticks n).st.toNat = s.st.toNat - n := by
  induction n generalizing s with
  | zero => rfl
  | succ n ih =>
    rw [State.ticks, ih, State.tick_st_toNat]
    omega

/-- The tick after `n` others is audible while `ST` has not run out (R173). -/
theorem State.ticks_audible_iff (s : State) (n : Nat) : (s.ticks n).tick.1 = true ↔ n < s.st.toNat := by
  rw [State.tick_audible_iff, State.ticks_st_toNat]
  omega

/-- `n` commands `tick` are `n` ticks of the core (R173). -/
theorem Session.run_replicate_tick (h : Session) (n : Nat) :
    h.run (List.replicate n .tick) = ⟨h.core.ticks n, h.phase⟩ := by
  induction n generalizing h with
  | zero => rfl
  | succ n ih => exact ih (h.perform .tick).2

/-- Settles O46, by induction over the ticks, of the core and of the session. -/
theorem ticksCountDownToZero : Obligations.TicksCountDownToZero :=
  ⟨fun s n => ⟨s.ticks_dt_toNat n, s.ticks_st_toNat n, s.ticks_audible_iff n⟩, fun _ => rfl, Session.run_replicate_tick⟩

/-! ### The level SOUND -/

theorem State.outputs_sound_iff (s : State) : s.outputs.sound = true ↔ s.st.toNat ≠ 0 :=
  bne_iff_ne.trans BitVec.toNat_ne_iff_ne.symm

/-- Settles O48: the level follows `ST`, and `Fx18` puts `V[x]` there. -/
theorem soundFollowsTheSoundTimer : Obligations.SoundFollowsTheSoundTimer := by
  refine ⟨State.outputs_sound_iff, fun s t x hexec => ?_⟩
  obtain rfl := Host.Outcome.next.inj hexec
  exact State.outputs_sound_iff _

/-! ### The key latch -/

/-- No footprint holds the key latch (R32). -/
theorem exec_key_eq {i : Instr} {s t : State} (hexec : exec i s = .next t) : t.key = s.key := by
  rw [exec_footprint hexec]
  cases i <;> rfl

theorem step_key_eq {s t : State} (hstep : step s = .next t) : t.key = s.key := by
  rcases step_cases hstep with ⟨-, rfl⟩ | ⟨-, -, rfl⟩ | ⟨-, i, -, hexec⟩
  · rfl
  · rfl
  · exact exec_key_eq hexec

theorem Session.perform_key_eq (h : Session) {c : Command} (hc : c.keepsKeys = true) :
    (h.perform c).2.core.key = h.core.key := by
  cases c with
  | initCore | setKeys => exact Bool.noConfusion hc
  | load image =>
    rw [Session.perform, Session.performLoad_eq]
    split <;> rfl
  | step => exact step_key_eq (step_eq_next_stepped h.core)
  | _ => rfl

/-- Settles O49: `setKeys` is the state as written, and every command that keeps the latch keeps it along a run. -/
theorem keysChangeBySetKeysOnly : Obligations.KeysChangeBySetKeysOnly :=
  ⟨fun _ _ => rfl, fun h _ hcs =>
    Session.run_keeps (P := fun k => k.core.key = h.core.key)
      (fun c hc k hk => (k.perform_key_eq (hcs c hc)).trans hk) rfl⟩

/-! ### The display -/

/-- The cells are given out row by row (R177, decision D22). -/
theorem State.getDisplay_getElem? (s : State) (r : Fin 32) (c : Fin 64) :
    s.getDisplay[64 * r.val + c.val]? = some s.fb[r][c] := by
  have hk : 64 * r.val + c.val < 2048 := by omega
  have hrow : (64 * r.val + c.val) / 64 = r.val := by omega
  have hcol : (64 * r.val + c.val) % 64 = c.val := by omega
  simp only [State.getDisplay, Vector.getElem?_ofFn, hk, dif_pos, hrow, hcol]
  rfl

/-- Settles O43: the flag port as written, and the row-major order of the cells. -/
theorem displayPorts : Obligations.DisplayPorts :=
  fun h => ⟨rfl, rfl, rfl, h.core.getDisplay_getElem?⟩

end Sys2Proof.Machine
end

