-- ==== Sys2Proof/Proofs/ResetAndLoad.lean ====
section
/-! The boot order and the end of a run (spec/70_reset_and_hazards.md R200 to R204, R213): the memory `initialize` leaves, the
two answers of `load`, on the core and in a session, and the jump to itself. -/

namespace Sys2Proof.Machine

variable {s : State} {h : Session} {image : List Byte}

/-! ### The memory `initialize` leaves -/

/-- Byte `k` of the font lies at `0x050 + k` (R200). -/
theorem read_fontMemory_font (font : Config.Font) (k : Fin 80) : (fontMemory font).read (0x050 + k.val) = font[k] := by
  refine Memory.read_foldl_write_inside (List.finRange 80) (fun k => 0x050 + k.val) (fontByte font) [] ?_ (List.mem_finRange k)
  refine (List.nodup_finRange 80).imp fun {j k} hne hcell => hne (Fin.ext ?_)
  simp only [Memory.cellOf] at hcell
  omega

/-- A cell outside the font's range reads as 0x00 (R200, decision D15). -/
theorem read_fontMemory_outside (font : Config.Font) {a : Nat} (ha : a < 4096) (hout : a < 0x050 ∨ 0x0A0 ≤ a) :
    (fontMemory font).read a = 0 := by
  have hcell : Memory.cellOf a = a := Nat.mod_eq_of_lt ha
  have hkept : (fontMemory font).read a = Memory.read [] a := by
    refine Memory.read_foldl_write_outside _ _ _ _ _ fun k _ => ?_
    rw [hcell, Memory.cellOf]
    omega
  rw [hkept, Memory.read, hcell, Memory.lookup, Memory.unlisted, dif_neg (by omega)]

/-! ### The two answers of `load` -/

theorem State.load_of_fits (hlen : image.length ≤ 3584) (hhalt : s.halt = false) :
    s.load image = (.accepted, { s with mem := s.mem.storeFrom 0x200 image }) :=
  if_pos ⟨hlen, hhalt⟩

theorem State.load_of_refused (hrefused : 3584 < image.length ∨ s.halt = true) : s.load image = (.refused, s) := by
  refine if_neg fun ⟨hlen, hhalt⟩ => ?_
  rcases hrefused with hlong | hhalted
  · omega
  · exact Bool.noConfusion (hhalted.symm.trans hhalt)

/-- An awaited `load` that the core accepts is placed, and the session runs (R204). -/
theorem Session.perform_load_of_fits (hphase : h.phase = .awaitingLoad) (hlen : image.length ≤ 3584)
    (hhalt : h.core.halt = false) :
    h.perform (.load image) = (.load .accepted, ⟨(h.core.load image).2, .running⟩) := by
  rw [Session.perform, Session.performLoad_eq, if_pos ⟨hphase, hlen, hhalt⟩, State.load_of_fits hlen hhalt]

/-- A `load` that comes too late, or that the core refuses, leaves the session as it was (R204, decision D17). -/
theorem Session.perform_load_of_refused (hrefused : h.phase = .running ∨ 3584 < image.length ∨ h.core.halt = true) :
    h.perform (.load image) = (.load .refused, h) := by
  rw [Session.perform, Session.performLoad_eq, if_neg]
  rintro ⟨hphase, hlen, hhalt⟩
  rcases hrefused with hrunning | hlong | hhalted
  · exact Phase.noConfusion (hrunning.symm.trans hphase)
  · omega
  · exact Bool.noConfusion (hhalted.symm.trans hhalt)

/-- An accepted `load` ends the wait (decision D17). -/
theorem Session.phase_of_load_accepted (haccepted : (h.perform (.load image)).1 = .load .accepted) :
    (h.perform (.load image)).2.phase = .running := by
  revert haccepted
  rw [Session.perform, Session.performLoad_eq]
  split
  · exact fun _ => rfl
  · exact fun haccepted => LoadAnswer.noConfusion (Answer.load.inj haccepted)

/-! ### The obligations -/

/-- Settles O54: the jump puts back the `PC` it is fetched from, so the next state is not halted either. -/
theorem endedRunStays : Obligations.EndedRunStays := by
  rintro s ⟨hhalt, nnn, hd, hpc⟩
  have hexec : exec (.jp nnn) s = .next s := congrArg (fun a => Host.Outcome.next (s.setPc a)) hpc.symm
  refine ⟨(step_known hhalt hd).trans hexec, ?_⟩
  rw [State.report_of_known hhalt hd hexec, hhalt]
  rfl

/-- Settles O59: memory by the writes of the font, each other field as `State.reset` has it. -/
theorem initializeResetsEverything : Obligations.InitializeResetsEverything := by
  refine ⟨fun _ _ => rfl, fun s font => ⟨read_fontMemory_font font, fun _ => read_fontMemory_outside font, ?_⟩⟩
  have hv (r : RegIx) : State.reset.v[r] = 0 := Vector.getElem_replicate r.isLt
  have hstack (k : Fin 16) : State.reset.stack[k] = 0 := Vector.getElem_replicate k.isLt
  have hkey (k : Fin 16) : State.reset.key[k] = false := Vector.getElem_replicate k.isLt
  exact ⟨hv, rfl, rfl, rfl, hstack, rfl, rfl, hkey, cellAt_clearDisplay, rfl, rfl, rfl⟩

/-- Settles O60: the core's two answers, the image's bytes where it is placed, and the one `load` a session admits. -/
theorem loadPlacesTheImage : Obligations.LoadPlacesTheImage := by
  refine ⟨fun s image hlen hhalt => ?_, fun _ _ => State.load_of_refused, fun _ _ => Session.perform_load_of_fits,
    fun _ _ _ hrefused => Session.perform_load_of_refused (.inr hrefused),
    fun _ _ hrunning => Session.perform_load_of_refused (.inl hrunning), fun _ => rfl, fun _ _ => ⟨rfl, rfl, rfl, rfl⟩,
    fun _ _ => Session.phase_of_load_accepted⟩
  rw [State.load_of_fits hlen hhalt]
  refine ⟨rfl, fun k => Memory.read_storeFrom_inside image s.mem 0x200 (by omega) k.val k.isLt, fun a ha hout => ?_, rfl⟩
  exact Memory.read_storeFrom_outside image s.mem 0x200 a fun j hj => by omega

end Sys2Proof.Machine
end
